-- ==== Sys2Proof/Word.lean ====
section
/-! DEFINITION. The word types of the block: bytes, nibbles, 16- and 24-bit registers, 17-bit bus words
(spec/00_scope.md R9, R11; spec/30_encoding.md R99). -/

namespace Sys2Proof

/-- A byte: an address, a data byte, a command byte. Bit 0 is the least significant (R11). -/
abbrev Byte := BitVec 8

/-- Half a byte (R11). -/
abbrev Nibble := BitVec 4

/-- A 16-bit register. -/
abbrev Word16 := BitVec 16

/-- A 24-bit register. -/
abbrev Word24 := BitVec 24

/-- A host transaction word `{WE, ADDR, DATA}` (R99). -/
abbrev BusWord := BitVec 17

end Sys2Proof
end

