-- ==== Sys2Proof/Config.lean ====
section
/-! DEFINITION. The format constants (spec/00_scope.md R8), the interface parameters (R9) and the one open
constant of the block (parameter P3). The latency parameters P1 and P2 are no constants here: the schedule in
State stands for them (log entries 2 and 3). -/

namespace Sys2Proof.Config

/-- R8 `PAYLOAD_LEN`. -/
abbrev payloadLen : Nat := 26

/-- R8 `WHITEN_MASK`. -/
abbrev whitenMask : Byte := 0xAA

/-- R8 `DIG_GEN`; also the reset value of `GEN` (R33). -/
abbrev digGen : Word16 := 0x8810

/-- R8 `DIG_KEY`; also the reset value of `KEY` (R34) and `LSTATE` (R37). -/
abbrev digKey : Word16 := 0xBA95

/-- R8 `FINAL_XOR`. -/
abbrev finalXor : Word16 := 0x6DF1

/-- R8 `DIG_OFF`; also the reset value of `DOFF` (R35). -/
abbrev digOff : Nat := 2

/-- R8 `DIG_LEN`; also the reset value of `DLEN` (R36). -/
abbrev digLen : Nat := 23

/-- R8 `CHK_OFF`: the first of the two checksum bytes. -/
abbrev chkOff : Fin 26 := 0

/-- R8 `SANITY_IDX`. -/
abbrev sanityIdx : Fin 26 := 21

/-- R8 `TEMP_WRAP`. -/
abbrev tempWrap : Nat := 600

/-- R8 `TEMP_BIAS`. -/
abbrev tempBias : Nat := 1000

/-- The address of the command port (R24, R61). -/
abbrev cmdAddr : Byte := 0x40

/-- The address of `STATUS` (R25, R61). -/
abbrev statusAddr : Byte := 0x41

/-- Parameter P3 `BASE` (R73): where the block sits in a host system. Open, used by no rule (log entry 11). -/
opaque base : Nat

/-- The system address of a byte of the block: every address of the spec is relative to `BASE` (R73). -/
def systemAddress (a : Byte) : Nat := base + a.toNat

end Sys2Proof.Config
end

