-- ==== Sys2Proof/Syntax.lean ====
section
/-! DEFINITION. The syntax: the seven rows of spec/opcode_table.json, the rejection causes of decoding and issue,
and the host program forms of spec/30_encoding.md R99 to R102. -/

namespace Sys2Proof

/-- The byte view a DIGEST reads (R92): `V = 0` the raw payload, `V = 1` the de-whitened one. -/
inductive View where
  | raw
  | dw
  deriving DecidableEq, Repr

/-- One constructor per row of spec/opcode_table.json: five commands (R91) and two bus transactions (R99). -/
inductive Instr where
  /-- R130. -/
  | nop
  /-- R233. -/
  | decode
  /-- R170. -/
  | digest (view : View)
  /-- R175; `n` is the step count, `ARG + 1`. -/
  | lstep (n : Nat)
  /-- R131. -/
  | clear
  /-- R65: `MemRead(addr, 1)`. -/
  | rd (addr : Byte)
  /-- R66: `MemWrite(addr, 1, data)`. -/
  | wr (addr data : Byte)
  deriving DecidableEq, Repr

/-- The causes of an interface error (R32, R241, R242). Decoding gives the first two. -/
inductive ErrCause where
  | illegalOp
  | badArg
  | range
  | busyWrite
  deriving DecidableEq, Repr

/-- The part of a multi-byte read a host name stands for (R102): `N`, `N.hi`, `N.lo`, `N.b2`, `N.b1`, `N.b0`. -/
inductive NamePart where
  | whole
  | hi
  | lo
  | b2
  | b1
  | b0
  deriving DecidableEq, Repr

/-- A host-side identifier; "the block never sees it" (R100). -/
structure HostName where
  base : String
  part : NamePart
  deriving DecidableEq, Repr

/-- One operation of a host program (R100). -/
inductive HostOp where
  /-- One bus transaction word (R99); the byte of a read is also bound to `dest`, where there is one. -/
  | xfer (t : BusWord) (dest : Option HostName)
  /-- `poll ADDR, MASK, VALUE`: read until `(byte & MASK) == VALUE`. -/
  | poll (addr mask value : Byte)
  deriving DecidableEq, Repr

/-- The command spellings of R101. -/
inductive Mnemonic where
  | NOP
  | DECODE
  | DIGEST_RAW
  | DIGEST_DW
  | LSTEP (n : Nat)
  | CLEAR
  deriving DecidableEq, Repr

/-- A line of a host program: the plain forms of R100 and the pseudo-instructions of R102. -/
inductive Line where
  | wr (addr data : Byte)
  | rd (addr : Byte) (dest : Option HostName)
  | poll (addr mask value : Byte)
  | cmd (m : Mnemonic)
  | wait
  | wr16 (addr : Byte) (value : Word16)
  | rd16 (addr : Byte) (name : String)
  | rd24 (addr : Byte) (name : String)
  | load26 (bytes : Vector Byte 26)
  deriving DecidableEq, Repr

end Sys2Proof
end

