-- ==== Sys2Proof/WellFormed.lean ====
section
/-! DEFINITION. Well-formedness of an instruction: the operands an encoding admits (spec/30_encoding.md R92, R101).
Views, addresses and data bytes have exactly the values of their types, so the step count is the one check. -/

namespace Sys2Proof

/-- "`LSTEP` with n outside 1..16 is not a valid spelling" (R101); every other operand is well formed by type. -/
def Instr.WellFormed : Instr → Bool
  | .nop => true
  | .decode => true
  | .digest _ => true
  | .lstep n => decide (1 ≤ n ∧ n ≤ 16)
  | .clear => true
  | .rd _ => true
  | .wr _ _ => true

/-- The instructions a command byte spells (R91); the other two are bus transactions. -/
def Instr.isCommand : Instr → Bool
  | .nop => true
  | .decode => true
  | .digest _ => true
  | .lstep _ => true
  | .clear => true
  | .rd _ => false
  | .wr _ _ => false

end Sys2Proof
end

