-- ==== Sys2Proof/Decode.lean ====
section
/-! DEFINITION. Decoding of the two formats, `cmd8` and `bus17`, total and rejecting by name; the encoder; the
host's table word (spec/30_encoding.md). -/

namespace Sys2Proof

/-- What decoding answers: an instruction, or the cause of rejection (R97). -/
inductive Decoded where
  | instr (i : Instr)
  | reject (c : ErrCause)
  deriving DecidableEq, Repr

/-- A word of one of the two formats (R90, R99). -/
inductive Code where
  | cmd (v : Byte)
  | bus (t : BusWord)
  deriving DecidableEq, Repr

/-- `OP = v[7:4]` (R90). -/
def opField (v : Byte) : Nibble := v.extractLsb' 4 4

/-- `ARG = v[3:0]` (R90). -/
def argField (v : Byte) : Nibble := v.extractLsb' 0 4

/-- An instruction whose `ARG` must be 0 (R92); any other `ARG` is reserved (R95). -/
def noArg (arg : Nibble) (i : Instr) : Decoded :=
  if arg = 0 then .instr i else .reject .badArg

/-- DIGEST: `ARG[3:1]` must be 000, and `V = ARG[0]` selects the view (R92). -/
def decodeDigest (arg : Nibble) : Decoded :=
  if arg.extractLsb' 1 3 = 0 then
    .instr (.digest (if arg.getLsbD 0 then .dw else .raw))
  else .reject .badArg

/-- `DecodeCmd(v)` (R97), total on all 256 bytes. -/
def decodeCmd (v : Byte) : Decoded :=
  match (opField v).toNat with
  | 0x0 => noArg (argField v) .nop
  | 0x1 => noArg (argField v) .decode
  | 0x2 => decodeDigest (argField v)
  | 0x3 => .instr (.lstep ((argField v).toNat + 1))
  | 0x4 => noArg (argField v) .clear
  | _ => .reject .illegalOp

/-- `WE` of a bus word (R99). -/
def weField (t : BusWord) : Bool := t.getLsbD 16

/-- `ADDR` of a bus word (R99). -/
def addrField (t : BusWord) : Byte := t.extractLsb' 8 8

/-- `DATA` of a bus word (R99). -/
def dataField (t : BusWord) : Byte := t.extractLsb' 0 8

/-- "Every word is a valid transaction, so the decoder is total"; `DATA` is ignored when `WE = 0` (R99). -/
def decodeBus (t : BusWord) : Instr :=
  if weField t then .wr (addrField t) (dataField t) else .rd (addrField t)

/-- Decoding of either format. -/
def decode : Code → Decoded
  | .cmd v => decodeCmd v
  | .bus t => .instr (decodeBus t)

/-- A command byte `{OP, ARG}` (R90). -/
def cmdByte (op arg : Nibble) : Byte := op ++ arg

/-- A bus word `{WE, ADDR, DATA}` (R99). -/
def busWord (we : Bool) (addr data : Byte) : BusWord := BitVec.ofBool we ++ addr ++ data

/-- The encoder, from the tables of R91, R92 and R99: the canonical word of each well-formed instruction. -/
def encode : Instr → Code
  | .nop => .cmd (cmdByte 0x0 0x0)
  | .decode => .cmd (cmdByte 0x1 0x0)
  | .digest .raw => .cmd (cmdByte 0x2 0x0)
  | .digest .dw => .cmd (cmdByte 0x2 0x1)
  | .lstep n => .cmd (cmdByte 0x3 (BitVec.ofNat 4 (n - 1)))
  | .clear => .cmd (cmdByte 0x4 0x0)
  | .rd a => .bus (busWord false a 0x00)
  | .wr a d => .bus (busWord true a d)

/-- A word is canonical unless it is a read with `DATA ≠ 0` (R99). -/
def Code.canonical : Code → Bool
  | .cmd _ => true
  | .bus t => weField t || dataField t == 0

/-- The word an opcode-table row of `nbits` bits stands for: one byte is a `cmd8`, more bits are a `bus17`
(log entry 15). Only the low 17 bits of a bus word exist. -/
def tableCode (nbits w : Nat) : Option Code :=
  if nbits ≤ 8 then
    if w < 2 ^ 8 then some (.cmd (BitVec.ofNat 8 w)) else none
  else
    if w < 2 ^ 17 then some (.bus (BitVec.ofNat 17 w)) else none

/-- The instruction the decoder reads from a table word; none where it refuses. -/
def decodeTableWord (nbits w : Nat) : Option Instr :=
  match tableCode nbits w with
  | none => none
  | some c =>
    match decode c with
    | .instr i => some i
    | .reject _ => none

end Sys2Proof
end

