-- ==== Sys2Proof/Machine/State.lean ====
section
/-! DEFINITION. The state: the block's registers (spec/10_state.md), the host side and the schedule of turns; the
fault and refusal reasons; the state after reset (R57, R270). -/

namespace Sys2Proof.Machine

/-- The 26 payload registers (R22). -/
abbrev Payload := Vector Byte 26

/-- The measurement record: the read-only registers of R40. -/
structure Record where
  /-- R41. -/
  id : Word16
  /-- R42; bits 7:4 are always 0. -/
  stype : Byte
  /-- R43: CHAN 2:0, STARTUP 3, BATT_OK 4; bits 7:5 are always 0. -/
  sinfo : Byte
  /-- R44; bits 7:4 are always 0. -/
  flags : Byte
  /-- R45. -/
  fvalid : Byte
  /-- R46. -/
  traw : Word16
  /-- R47; two's complement. -/
  temp : Word16
  /-- R48. -/
  hum : Byte
  /-- R49. -/
  wdir : Word16
  /-- R50. -/
  wgust : Word16
  /-- R51. -/
  wavg : Word16
  /-- R52. -/
  rain : Word24
  /-- R53. -/
  lux : Word24
  /-- R54. -/
  uv : Word16
  deriving DecidableEq, Repr

/-- Every record register 0: at reset (R40) and after CLEAR (R131). -/
def Record.zero : Record :=
  { id := 0, stype := 0, sinfo := 0, flags := 0, fvalid := 0, traw := 0, temp := 0, hum := 0, wdir := 0,
    wgust := 0, wavg := 0, rain := 0, lux := 0, uv := 0 }

/-- The block: every register of R22 to R55. `STATUS` is held as its fields (R25; log entry 17). -/
structure Block where
  /-- R22. -/
  payload : Payload
  /-- R31, STATUS bit 7. -/
  busy : Bool
  /-- R30, STATUS bit 6. -/
  done : Bool
  /-- R29, STATUS bit 5. -/
  err : Bool
  /-- R28, STATUS bit 4. -/
  complete : Bool
  /-- R27, STATUS bit 3. -/
  valid : Bool
  /-- R26, STATUS bits 2:0. -/
  code : BitVec 3
  /-- R32. -/
  errcode : Byte
  /-- R33. -/
  gen : Word16
  /-- R34. -/
  key : Word16
  /-- R35. -/
  doff : Byte
  /-- R36. -/
  dlen : Byte
  /-- R37. -/
  lstate : Word16
  /-- R38. -/
  dsum : Word16
  /-- R39. -/
  chk : Word16
  /-- R40. -/
  record : Record
  /-- R55: the accepted command byte; hidden. -/
  pend : Byte
  deriving DecidableEq, Repr

/-- Who moves next (R13): the host, the engine, or the reset input. -/
inductive Turn where
  | host
  | engine
  | reset
  deriving DecidableEq, Repr

/-- The machine: the block, and around it the host and the schedule that plain data must hold for one step to be
a function (log entries 2 and 5). -/
structure State where
  blk : Block
  /-- The byte the last `MemRead` returned (R65). -/
  rdata : Byte
  /-- The host operations not yet performed, in program order (R74). -/
  prog : List HostOp
  /-- The host-side bindings of `rd ADDR -> NAME`, newest first (R100; log entry 10). -/
  names : List (HostName × Byte)
  /-- The turns to come: the open interleaving of R13 and R124. -/
  sched : List Turn
  deriving DecidableEq, Repr

/-- Why the machine stops. Neither is reached from reset (`Safety.Inv`, log entry 7). -/
inductive Fault where
  /-- Raised by a commit whose `PEND` spells no command: "always a legal command here" (R125). Safe. -/
  | pendingNotCommand
  /-- Raised by a DIGEST commit with `DOFF + DLEN > 26`: "acceptance ensured s + n <= 26" (R170). Safe. -/
  | digestOutOfRange
  deriving DecidableEq, Repr

/-- Why an instruction has no meaning. No arm of `exec` answers it; safe. -/
inductive Refusal where
  /-- Answered by an arm of `exec` for an instruction not modelled yet; there is none. Safe. -/
  | notModelled (mnemonic : String)
  deriving DecidableEq, Repr

/-- Every register at its reset value (R57, R270). `PEND` has none in the spec: DESIGN CHOICE 0x00, unsafe
(log entry 1). -/
def Block.reset : Block :=
  { payload := Vector.replicate 26 0x00
    busy := false, done := false, err := false, complete := false, valid := false, code := 0
    errcode := 0x00
    gen := 0x8810, key := 0xBA95, doff := 0x02, dlen := 0x17, lstate := 0xBA95
    dsum := 0x0000, chk := 0x0000
    record := Record.zero
    pend := 0x00 }

/-- The machine right after reset (R271: every run starts here). No host operation waits and no turn is chosen
(DESIGN CHOICE, log entries 2, 5 and 6). -/
def State.reset : State :=
  { blk := Block.reset, rdata := 0x00, prog := [], names := [], sched := [] }

/-- The same machine with another block. -/
def State.withBlk (s : State) (b : Block) : State := { s with blk := b }

end Sys2Proof.Machine
end

