-- ==== Sys2Proof/Machine/Operands.lean ====
section
/-! DEFINITION. Operand forms: nibbles and register bytes, the address map, the de-whitened view, the digest range,
the BCD digit table (spec/20_memory.md R61 to R63, spec/41_dewhitener.md, spec/42_digest.md R170,
spec/43_decode.md R201). -/

namespace Sys2Proof.Machine

/-- `hi4(b) = b[7:4]` (R11, R12). -/
def hi4 (b : Byte) : Nibble := b.extractLsb' 4 4

/-- `lo4(b) = b[3:0]` (R11, R12). -/
def lo4 (b : Byte) : Nibble := b.extractLsb' 0 4

/-- Which byte of a 16-bit register (R63). -/
inductive Half where
  | hi
  | lo
  deriving DecidableEq, Repr

/-- Which byte of a 24-bit register (R63). -/
inductive Third where
  | b2
  | b1
  | b0
  deriving DecidableEq, Repr

/-- One byte of a 16-bit register. -/
def half : Half → Word16 → Byte
  | .hi, w => w.extractLsb' 8 8
  | .lo, w => w.extractLsb' 0 8

/-- One byte of a 24-bit register. -/
def third : Third → Word24 → Byte
  | .b2, w => w.extractLsb' 16 8
  | .b1, w => w.extractLsb' 8 8
  | .b0, w => w.extractLsb' 0 8

/-- A 16-bit register with one byte written; the other is unchanged (R66). -/
def setHalf : Half → Word16 → Byte → Word16
  | .hi, w, v => v ++ (w.extractLsb' 0 8 : Byte)
  | .lo, w, v => (w.extractLsb' 8 8 : Byte) ++ v

/-- A byte address, named: the rows of R61. -/
inductive Port where
  | payload (i : Fin 26)
  | dw (i : Fin 26)
  | cmd
  | status
  | errcode
  | gen (h : Half)
  | key (h : Half)
  | doff
  | dlen
  | lstate (h : Half)
  | dsum (h : Half)
  | chk (h : Half)
  | id (h : Half)
  | stype
  | sinfo
  | flags
  | fvalid
  | wdir (h : Half)
  | wgust (h : Half)
  | wavg (h : Half)
  | rain (t : Third)
  | hum
  | temp (h : Half)
  | lux (t : Third)
  | uv (h : Half)
  | traw (h : Half)
  | reserved
  deriving DecidableEq, Repr

/-- The rows of R61 from 0x40 on. -/
def controlPort : Nat → Port
  | 0x40 => .cmd
  | 0x41 => .status
  | 0x42 => .errcode
  | 0x44 => .gen .hi
  | 0x45 => .gen .lo
  | 0x46 => .key .hi
  | 0x47 => .key .lo
  | 0x48 => .doff
  | 0x49 => .dlen
  | 0x4A => .lstate .hi
  | 0x4B => .lstate .lo
  | 0x4C => .dsum .hi
  | 0x4D => .dsum .lo
  | 0x4E => .chk .hi
  | 0x4F => .chk .lo
  | 0x50 => .id .hi
  | 0x51 => .id .lo
  | 0x52 => .stype
  | 0x53 => .sinfo
  | 0x54 => .flags
  | 0x55 => .fvalid
  | 0x56 => .wdir .hi
  | 0x57 => .wdir .lo
  | 0x58 => .wgust .hi
  | 0x59 => .wgust .lo
  | 0x5A => .wavg .hi
  | 0x5B => .wavg .lo
  | 0x5C => .rain .b2
  | 0x5D => .rain .b1
  | 0x5E => .rain .b0
  | 0x5F => .hum
  | 0x60 => .temp .hi
  | 0x61 => .temp .lo
  | 0x62 => .lux .b2
  | 0x63 => .lux .b1
  | 0x64 => .lux .b0
  | 0x65 => .uv .hi
  | 0x66 => .uv .lo
  | 0x67 => .traw .hi
  | 0x68 => .traw .lo
  | _ => .reserved

/-- The address map (R61, R62). -/
def portOf (a : Byte) : Port :=
  if h : a.toNat < 26 then .payload ⟨a.toNat, h⟩
  else if h : 0x20 ≤ a.toNat ∧ a.toNat < 0x3A then .dw ⟨a.toNat - 0x20, by omega⟩
  else controlPort a.toNat

/-- "if a is writable (0x00..0x19, 0x44..0x4B)" (R66). -/
def writable (a : Byte) : Bool := a.toNat < 0x1A || (0x44 ≤ a.toNat && a.toNat ≤ 0x4B)

/-- `DW[i] = PAYLOAD[i] ^ 0xAA` (R150): a view, no storage (R23). -/
def dw (p : Payload) (i : Fin 26) : Byte := p[i] ^^^ Config.whitenMask

/-- The bytes of one view of the payload (R92, R153). -/
def viewBytes : View → Payload → List Byte
  | .raw, p => p.toList
  | .dw, p => p.toList.map (· ^^^ Config.whitenMask)

/-- `n` bytes of a view from offset `s` on (R170, R195). -/
def viewRange (v : View) (s n : Nat) (p : Payload) : List Byte := ((viewBytes v p).drop s).take n

/-- `{p[i], p[j]}` of the de-whitened view: the first byte is the high one (R72). -/
def dwPair (p : Payload) (i j : Fin 26) : Word16 := dw p i ++ dw p j

/-- A nibble selector (R201). -/
inductive Nib where
  | hi
  | lo
  deriving DecidableEq, Repr

/-- The nibble of a byte a selector names. -/
def nib : Nib → Byte → Nibble
  | .hi, b => hi4 b
  | .lo, b => lo4 b

/-- A digit: a byte offset and a nibble selector (R201). -/
abbrev Digit := Fin 26 × Nib

/-- The nibbles of a list of digits, most significant first, from the de-whitened view (R201, R206). -/
def digits (p : Payload) (ds : List Digit) : List Nibble := ds.map (fun d => nib d.2 (dw p d.1))

/-- R208. -/
def wdirDigits : List Digit := [(4, .hi), (4, .lo), (5, .hi)]

/-- R209. -/
def wgustDigits : List Digit := [(7, .hi), (7, .lo), (8, .hi)]

/-- R210. -/
def wavgDigits : List Digit := [(8, .lo), (9, .hi), (9, .lo)]

/-- R211. -/
def rainDigits : List Digit := [(10, .hi), (10, .lo), (11, .hi), (11, .lo), (12, .hi), (12, .lo)]

/-- R215. -/
def trawDigits : List Digit := [(14, .hi), (14, .lo), (15, .hi)]

/-- R212. -/
def humDigits : List Digit := [(16, .hi), (16, .lo)]

/-- R213. -/
def luxDigits : List Digit := [(17, .hi), (17, .lo), (18, .hi), (18, .lo), (19, .hi), (19, .lo)]

/-- R214. -/
def uvDigits : List Digit := [(20, .hi), (20, .lo), (21, .hi)]

/-- `bcd_m`: the sum of `d_i * 10^(m - i)`, most significant digit first; a nibble above 9 enters with its binary
value (R200). -/
def bcd : List Nibble → Nat
  | [] => 0
  | d :: ds => d.toNat * 10 ^ ds.length + bcd ds

/-- `DOFF + DLEN ≤ 26` in exact arithmetic (R243). -/
def digestInRange (b : Block) : Bool := b.doff.toNat + b.dlen.toNat ≤ Config.payloadLen

end Sys2Proof.Machine
end

