-- ==== Sys2Proof/Machine/Flags.lean ====
section
/-! DEFINITION. Status, error and record flags: the STATUS byte (spec/10_state.md R25), the status vocabulary (R26),
ERRCODE (R32), SINFO (R43), FVALID (R45), and the flag updates of acceptance and commit
(spec/40_issue_and_control.md R122, R125). -/

namespace Sys2Proof.Machine

/-- The status vocabulary (R26, R237, R245); only `invalid`, `ok` and `digErr` are ever committed. -/
inductive DecodeStatus where
  | invalid
  | ok
  | parErr
  | chkErr
  | digErr
  | skip
  | full
  deriving DecidableEq, Repr

/-- The numeric values of R26. -/
def DecodeStatus.code : DecodeStatus → BitVec 3
  | .invalid => 0
  | .ok => 1
  | .parErr => 2
  | .chkErr => 3
  | .digErr => 4
  | .skip => 5
  | .full => 6

/-- The numeric values of R32; 0 is NONE. -/
def errCode : ErrCause → Byte
  | .illegalOp => 1
  | .badArg => 2
  | .range => 3
  | .busyWrite => 4

/-- The STATUS byte `{BUSY, DONE, ERR, COMPLETE, VALID, CODE[2:0]}` (R25, R65). -/
def statusByte (b : Block) : Byte :=
  BitVec.ofBool b.busy ++ BitVec.ofBool b.done ++ BitVec.ofBool b.err ++ BitVec.ofBool b.complete ++
    BitVec.ofBool b.valid ++ b.code

/-- What a DECODE or CLEAR writes into STATUS: `CODE`, and `VALID` and `COMPLETE` alike (R27, R28). -/
def setOutcome (st : DecodeStatus) (ok : Bool) (b : Block) : Block :=
  { b with code := st.code, valid := ok, complete := ok }

/-- The end of every commit: `BUSY <- 0; DONE <- 1`; `ERR` and `ERRCODE` are not changed (R125). -/
def finish (b : Block) : Block := { b with busy := false, done := true }

/-- Acceptance: `ERR <- 0; ERRCODE <- 0x00; DONE <- 0; BUSY <- 1; PEND <- v` (R122). -/
def accept (v : Byte) (b : Block) : Block :=
  { b with err := false, errcode := 0x00, done := false, busy := true, pend := v }

/-- `batt_low`: both bits of mask 0x6 set in the flags nibble (R207). -/
def battLow (flags : Nibble) : Bool := flags &&& 0x6 == 0x6

/-- `SINFO.CHAN` (R43). -/
def chanOf (sinfo : Byte) : BitVec 3 := sinfo.extractLsb' 0 3

/-- `SINFO.STARTUP` (R43). -/
def startupOf (sinfo : Byte) : Bool := sinfo.getLsbD 3

/-- `SINFO.BATT_OK` (R43). -/
def battOkOf (sinfo : Byte) : Bool := sinfo.getLsbD 4

/-- `{000, BATT_OK, STARTUP, CHAN}` (R43, R204, R205, R207), from de-whitened bytes 6 and 15. -/
def packSinfo (dw6 dw15 : Byte) : Byte :=
  (0 : BitVec 3) ++ BitVec.ofBool (!battLow (lo4 dw15)) ++ BitVec.ofBool (!dw6.getLsbD 3) ++
    (dw6.extractLsb' 0 3 : BitVec 3)

/-- Every measurement flag set (R218). -/
def fvalidAll : Byte := 0xFF

end Sys2Proof.Machine
end

