-- ==== Sys2Proof/Machine/Ops.lean ====
section
/-! DEFINITION. The named operations over the block: `MemRead`, `MemWrite`, `IssueCommand`, and the two shared error
operations, `CmdError` and `DropBusyWrite` (spec/20_memory.md R65 to R67, spec/40_issue_and_control.md R122,
spec/60_exceptions.md R241, R242). The block has no trap: these two are all it does on an abnormal event (R240, R254),
and the return from one is the acceptance of a later command (R255). -/

namespace Sys2Proof.Machine

/-- The byte at a named address (R65). -/
def readPort (b : Block) : Port → Byte
  | .payload i => b.payload[i]
  | .dw i => dw b.payload i
  | .cmd => 0x00
  | .status => statusByte b
  | .errcode => b.errcode
  | .gen h => half h b.gen
  | .key h => half h b.key
  | .doff => b.doff
  | .dlen => b.dlen
  | .lstate h => half h b.lstate
  | .dsum h => half h b.dsum
  | .chk h => half h b.chk
  | .id h => half h b.record.id
  | .stype => (b.record.stype.extractLsb' 0 4).setWidth 8
  | .sinfo => (b.record.sinfo.extractLsb' 0 5).setWidth 8
  | .flags => (b.record.flags.extractLsb' 0 4).setWidth 8
  | .fvalid => b.record.fvalid
  | .wdir h => half h b.record.wdir
  | .wgust h => half h b.record.wgust
  | .wavg h => half h b.record.wavg
  | .rain t => third t b.record.rain
  | .hum => b.record.hum
  | .temp h => half h b.record.temp
  | .lux t => third t b.record.lux
  | .uv h => half h b.record.uv
  | .traw h => half h b.record.traw
  | .reserved => 0x00

/-- `MemRead(a, 1)` (R65): a byte, and no effect. -/
def memRead (a : Byte) (b : Block) : Byte := readPort b (portOf a)

/-- `CmdError(c)` (R241): `ERR <- 1; ERRCODE <- c; DONE <- 1`; nothing is executed. -/
def cmdError (c : ErrCause) (b : Block) : Block :=
  { b with err := true, errcode := errCode c, done := true }

/-- `DropBusyWrite()` (R242): `ERR <- 1; ERRCODE <- 4`; the written byte is discarded. -/
def dropBusyWrite (b : Block) : Block :=
  { b with err := true, errcode := errCode .busyWrite }

/-- The acceptance check that reads state: the DIGEST range (R122, R243). -/
def acceptable (i : Instr) (b : Block) : Bool :=
  match i with
  | .digest _ => digestInRange b
  | .nop => true
  | .decode => true
  | .lstep _ => true
  | .clear => true
  | .rd _ => true
  | .wr _ _ => true

/-- `IssueCommand(v)` (R122): drop, reject or accept; the first failing check decides (R250). -/
def issueCommand (v : Byte) (b : Block) : Block :=
  if b.busy then dropBusyWrite b
  else
    match decodeCmd v with
    | .reject c => cmdError c b
    | .instr i => if acceptable i b then accept v b else cmdError .range b

/-- The store of one byte into a writable register (R66); no other address has a store. -/
def storePort (v : Byte) (b : Block) : Port → Block
  | .payload i => { b with payload := b.payload.set i v }
  | .gen h => { b with gen := setHalf h b.gen v }
  | .key h => { b with key := setHalf h b.key v }
  | .doff => { b with doff := v }
  | .dlen => { b with dlen := v }
  | .lstate h => { b with lstate := setHalf h b.lstate v }
  | _ => b

/-- `MemWrite(a, 1, v)` (R66, R67). -/
def memWrite (a v : Byte) (b : Block) : Block :=
  if a = Config.cmdAddr then issueCommand v b
  else if writable a then
    if b.busy then dropBusyWrite b else storePort v b (portOf a)
  else b

/-- The commit of a command whose `Exec` writes are `f`: the writes, then `BUSY <- 0; DONE <- 1`, in one step
(R125). -/
def commitWith (f : Block → Block) (s : State) : Host.Outcome State Fault Refusal :=
  .next (s.withBlk (finish (f s.blk)))

/-- The reset event (R270): every register at its reset value, a pending command discarded. The host's side is no
register of the block (log entry 5). -/
def resetBlock (s : State) : State := s.withBlk Block.reset

end Sys2Proof.Machine
end

