-- ==== Sys2Proof/Machine/Bus.lean ====
section
/-! DEFINITION. The two bus transactions, RD and WR (spec/20_memory.md R65, R66). -/

namespace Sys2Proof.Machine

/-- RD: the host receives the byte `MemRead(a, 1)` returns; the block is unchanged (R65, R68). -/
def execRd (a : Byte) (s : State) : Host.Outcome State Fault Refusal :=
  .next { s with rdata := memRead a s.blk }

/-- WR: `MemWrite(a, 1, v)`; it always completes (R66, R240). -/
def execWr (a v : Byte) (s : State) : Host.Outcome State Fault Refusal :=
  .next (s.withBlk (memWrite a v s.blk))

end Sys2Proof.Machine
end

