-- ==== Sys2Proof/Machine/Control.lean ====
section
/-! DEFINITION. NOP and CLEAR (spec/40_issue_and_control.md R130, R131). -/

namespace Sys2Proof.Machine

/-- `ExecNOP(): (no effect)` (R130), committed. -/
def execNop (s : State) : Host.Outcome State Fault Refusal := commitWith (fun b => b) s

/-- What CLEAR writes (R131). -/
def clearBlock (b : Block) : Block :=
  { setOutcome .invalid false b with dsum := 0x0000, chk := 0x0000, record := Record.zero }

/-- `ExecCLEAR()` (R131), committed. -/
def execClear (s : State) : Host.Outcome State Fault Refusal := commitWith clearBlock s

end Sys2Proof.Machine
end

