-- ==== Sys2Proof/Machine/Digest.lean ====
section
/-! DEFINITION. The LFSR step, the digest function in its serial and parallel forms, DIGEST and LSTEP
(spec/42_digest.md). -/

namespace Sys2Proof.Machine

/-- `lfsr_step(k, g)` (R160): shift right; the generator enters after the shift, only when the dropped bit was 1. -/
def lfsrStep (k g : Word16) : Word16 := if k.getLsbD 0 then (k >>> 1) ^^^ g else k >>> 1

/-- `n` LFSR steps from `k` (R175). -/
def lfsrSteps (g : Word16) : Nat → Word16 → Word16
  | 0, k => k
  | n + 1, k => lfsrSteps g n (lfsrStep k g)

/-- One input bit (R161): the sum takes the key if the bit is 1; then the key advances, whatever the bit. -/
def digestBit (g : Word16) (st : Word16 × Word16) (bit : Bool) : Word16 × Word16 :=
  (if bit then st.1 ^^^ st.2 else st.1, lfsrStep st.2 g)

/-- The bits of a byte from most significant to least significant (R161). -/
def bitsMsbFirst (b : Byte) : List Bool := [7, 6, 5, 4, 3, 2, 1, 0].map b.getLsbD

/-- The input bits in processing order (R161, R163). -/
def inputBits (bytes : List Byte) : List Bool := bytes.flatMap bitsMsbFirst

/-- `digest16(bytes, len, gen, key)` (R161). -/
def digest16 (bytes : List Byte) (len : Nat) (gen key : Word16) : Word16 :=
  ((inputBits (bytes.take len)).foldl (digestBit gen) (0x0000, key)).1

/-- The keystream: `K_0 = key`, `K_{j+1} = lfsr_step(K_j, gen)` (R163). -/
def keyStream (gen key : Word16) : Nat → Word16
  | 0 => key
  | j + 1 => lfsrStep (keyStream gen key j) gen

/-- Input bit `j` is `bytes[j div 8][7 - (j mod 8)]` (R163). -/
def inputBit (bytes : List Byte) (j : Nat) : Bool := ((bytes[j / 8]?).getD 0).getLsbD (7 - j % 8)

/-- The parallel form: the XOR of `bit_j ? K_j : 0` over `0 ≤ j < 8·len` (R163). -/
def digestTree (bytes : List Byte) (len : Nat) (gen key : Word16) : Word16 :=
  (List.range (8 * len)).foldl
    (fun acc j => acc ^^^ (if inputBit bytes j then keyStream gen key j else 0x0000)) 0x0000

/-- What DIGEST writes (R170). -/
def digestBlock (v : View) (b : Block) : Block :=
  { b with
    dsum := digest16 (viewRange v b.doff.toNat b.dlen.toNat b.payload) b.dlen.toNat b.gen b.key }

/-- `ExecDIGEST(V)` (R170), committed. Acceptance ensured the range (log entry 7). -/
def execDigest (v : View) (s : State) : Host.Outcome State Fault Refusal :=
  if digestInRange s.blk then commitWith (digestBlock v) s else .fault .digestOutOfRange

/-- What LSTEP writes (R175). -/
def lstepBlock (n : Nat) (b : Block) : Block := { b with lstate := lfsrSteps b.gen n b.lstate }

/-- `ExecLSTEP(n)` (R175), committed. -/
def execLstep (n : Nat) (s : State) : Host.Outcome State Fault Refusal := commitWith (lstepBlock n) s

end Sys2Proof.Machine
end

