-- ==== Sys2Proof/Machine/Payload.lean ====
section
/-! DEFINITION. DECODE: sanity check, checksum validator, BCD converter array, temperature rule
(spec/43_decode.md). -/

namespace Sys2Proof.Machine

/-- Step 1, on the raw byte (R192). -/
def sanityFails (p : Payload) : Bool := p[Config.sanityIdx] == 0x00

/-- Step 3: the expected checksum `{DW[0], DW[1]}` (R195). -/
def checksumField (p : Payload) : Word16 := dwPair p Config.chkOff (Config.chkOff + 1)

/-- Step 4: the digest of `DW[2..24]` under the format constants (R194, R195). -/
def frameDigest (p : Payload) : Word16 :=
  digest16 (viewRange .dw Config.digOff Config.digLen p) Config.digLen Config.digGen Config.digKey

/-- Step 5, the validator: `(chk ^ dig) == 0x6DF1` (R196). -/
def validatorPasses (chk dig : Word16) : Bool := chk ^^^ dig == Config.finalXor

/-- The temperature offset rule in exact integers: 600 itself is not wrapped (R216). -/
def tempOffset (traw : Nat) : Int :=
  if traw > Config.tempWrap then (traw : Int) - Config.tempBias else traw

/-- `TEMP <- tc16(t)` (R216). -/
def tempWord (traw : Nat) : Word16 := BitVec.ofInt 16 (tempOffset traw)

/-- The raw temperature (R215). -/
def rawTemp (p : Payload) : Nat := bcd (digits p trawDigits)

/-- Step 6: the whole record of a frame (R200 to R218). -/
def recordOf (p : Payload) : Record :=
  { id := dwPair p 2 3
    stype := (hi4 p[6]).setWidth 8
    sinfo := packSinfo (dw p 6) (dw p 15)
    flags := (lo4 (dw p 15)).setWidth 8
    fvalid := fvalidAll
    traw := BitVec.ofNat 16 (rawTemp p)
    temp := tempWord (rawTemp p)
    hum := BitVec.ofNat 8 (bcd (digits p humDigits))
    wdir := BitVec.ofNat 16 (bcd (digits p wdirDigits))
    wgust := BitVec.ofNat 16 (bcd (digits p wgustDigits))
    wavg := BitVec.ofNat 16 (bcd (digits p wavgDigits))
    rain := BitVec.ofNat 24 (bcd (digits p rainDigits))
    lux := BitVec.ofNat 24 (bcd (digits p luxDigits))
    uv := BitVec.ofNat 16 (bcd (digits p uvDigits)) }

/-- The status a frame decodes to, in the source's step order (R198, R251). -/
def frameStatus (p : Payload) : DecodeStatus :=
  if sanityFails p then .invalid
  else if validatorPasses (checksumField p) (frameDigest p) then .ok
  else .digErr

/-- `DSUM <- dig; CHK <- chk` (R233). -/
def setDigest (b : Block) : Block :=
  { b with dsum := frameDigest b.payload, chk := checksumField b.payload }

/-- Step 6: every record register (R233). -/
def setRecord (b : Block) : Block := { b with record := recordOf b.payload }

/-- What DECODE writes (R233): on INVALID the status alone, on DIG_ERR also `DSUM` and `CHK`, on OK also the record
(R234, R235). -/
def decodeBlock (b : Block) : Block :=
  match frameStatus b.payload with
  | .invalid => setOutcome .invalid false b
  | .ok => setOutcome .ok true (setRecord (setDigest b))
  | st => setOutcome st false (setDigest b)

/-- `ExecDECODE()` (R233), committed. -/
def execDecode (s : State) : Host.Outcome State Fault Refusal := commitWith decodeBlock s

/-- The valid frame whose de-whitened bytes 2 to 25 are those of `w`: the checksum field is set to
`dig ^ 0x6DF1`, and the whole is whitened (R151, R197). -/
def validFrame (w : Vector Byte 26) : Payload :=
  let dig := digest16 ((w.toList.drop Config.digOff).take Config.digLen) Config.digLen Config.digGen Config.digKey
  let chk := dig ^^^ Config.finalXor
  ((w.set 0 (half .hi chk)).set 1 (half .lo chk)).map (· ^^^ Config.whitenMask)

end Sys2Proof.Machine
end

