-- ==== Sys2Proof/Machine/Agents.lean ====
section
/-! DEFINITION. The agents' turns: the engine fetches its command from `PEND`, the host its transaction from its
program, the reset input resets the block (spec/00_scope.md R13, spec/40_issue_and_control.md R124, R125,
spec/30_encoding.md R100). -/

namespace Sys2Proof.Machine

/-- `Commit()` (R125): runs the command `PEND` spells. -/
def commit (s : State) : Host.Outcome State Fault Refusal :=
  match decodeCmd s.blk.pend with
  | .instr i => exec i s
  | .reject _ => .fault .pendingNotCommand

/-- The engine's turn: a commit, "enabled exactly when `BUSY = 1`" (R124). A turn given to an idle engine passes
(log entry 4). -/
def engineTurn (s : State) : Host.Outcome State Fault Refusal :=
  if s.blk.busy then commit s else .next s

/-- `rd ADDR -> NAME` also binds the byte read (R100). -/
def bindRead (i : Instr) (dest : Option HostName) (s : State) : State :=
  match i, dest with
  | .rd _, some n => { s with names := (n, s.rdata) :: s.names }
  | _, _ => s

/-- An outcome with its next state changed. -/
def mapNext (f : State → State) : Host.Outcome State Fault Refusal → Host.Outcome State Fault Refusal
  | .next s => .next (f s)
  | .fault r => .fault r
  | .refused r => .refused r

/-- One iteration of `poll`: it is repeated until `(byte & MASK) == VALUE` (R100). -/
def pollAgain (a mask value : Byte) (s : State) : State :=
  if s.rdata &&& mask = value then s else { s with prog := .poll a mask value :: s.prog }

/-- The host's turn: its next operation, one bus transaction (R74). A host whose program is done does nothing
(log entry 4). -/
def hostTurn (s : State) : Host.Outcome State Fault Refusal :=
  match s.prog with
  | [] => .next s
  | .xfer t dest :: ps => mapNext (bindRead (decodeBus t) dest) (exec (decodeBus t) { s with prog := ps })
  | .poll a mask value :: ps => mapNext (pollAgain a mask value) (exec (.rd a) { s with prog := ps })

/-- The reset event (R270). -/
def resetTurn (s : State) : Host.Outcome State Fault Refusal := .next (resetBlock s)

/-- The turn taken when the schedule names none: a busy engine commits, so no command waits forever (R290, log
entry 2); else the host moves. -/
def freeTurn (s : State) : Host.Outcome State Fault Refusal :=
  if s.blk.busy then engineTurn s else hostTurn s

/-- The turn of a named agent. -/
def takeTurn : Turn → State → Host.Outcome State Fault Refusal
  | .host, s => hostTurn s
  | .engine, s => engineTurn s
  | .reset, s => resetTurn s

/-- The machine with a table word where its agent fetches: a command byte pending in the engine, a bus word at the
head of the host's program; and the turn given to that agent (log entries 6 and 14). -/
def placeCode (c : Code) (s : State) : State :=
  match c with
  | .cmd v => { s with blk := { s.blk with busy := true, pend := v }, sched := .engine :: s.sched }
  | .bus t => { s with prog := .xfer t none :: s.prog, sched := .host :: s.sched }

end Sys2Proof.Machine
end

