-- ==== Sys2Proof/Machine/Step.lean ====
section
/-! DEFINITION. One step: the turn the schedule names (spec/00_scope.md R13, spec/20_memory.md R74). -/

namespace Sys2Proof.Machine

/-- One host step, engine step or reset event, all atomic and in one total order (R13, R74). -/
def step (s : State) : Host.Outcome State Fault Refusal :=
  match s.sched with
  | [] => freeTurn s
  | t :: ts => takeTurn t { s with sched := ts }

/-- The machine whose very next step runs the table word `w` (log entries 6, 14 and 15). -/
def State.withFetchWord (s : State) (nbits w : Nat) : State :=
  match tableCode nbits w with
  | some c => placeCode c s
  | none => s

end Sys2Proof.Machine
end

