-- ==== Sys2Proof/Machine/Names.lean ====
section
/-! DEFINITION. The values host names stand for: one byte for a name `rd ADDR -> NAME` bound, the register a `rd16` or
`rd24` read byte by byte (spec/30_encoding.md R100, R102). -/

namespace Sys2Proof.Machine

/-- The byte a name is bound to, none if no read bound it: its newest binding (R100; log entry 10). -/
def boundByte (n : HostName) (s : State) : Option Byte :=
  (s.names.find? fun b => b.1 == n).map Prod.snd

/-- `N = {N.hi, N.lo}` of `rd16 A -> N` (R102). -/
def boundWord16 (n : String) (s : State) : Option Word16 :=
  match boundByte { base := n, part := .hi } s, boundByte { base := n, part := .lo } s with
  | some hi, some lo => some (hi ++ lo)
  | _, _ => none

/-- `N = {N.b2, N.b1, N.b0}` of `rd24 A -> N` (R102). -/
def boundWord24 (n : String) (s : State) : Option Word24 :=
  match boundByte { base := n, part := .b2 } s, boundByte { base := n, part := .b1 } s,
    boundByte { base := n, part := .b0 } s with
  | some b2, some b1, some b0 => some (b2 ++ b1 ++ b0)
  | _, _, _ => none

end Sys2Proof.Machine
end

