-- ==== Sys2Proof/Machine/Assembler.lean ====
section
/-! DEFINITION. Host program syntax: the command spellings and the pseudo-instruction expansions
(spec/30_encoding.md R100 to R102). -/

namespace Sys2Proof.Machine

/-- The byte of a spelling (R101); "`LSTEP` with n outside 1..16 ... is rejected by the assembler". -/
def mnemonicByte : Mnemonic → Option Byte
  | .NOP => some 0x00
  | .DECODE => some 0x10
  | .DIGEST_RAW => some 0x20
  | .DIGEST_DW => some 0x21
  | .LSTEP n => if 1 ≤ n ∧ n ≤ 16 then some (0x30 ||| BitVec.ofNat 8 (n - 1)) else none
  | .CLEAR => some 0x40

/-- `wr ADDR, BYTE`: the word `{1, ADDR, BYTE}` (R100). -/
def wrOp (a v : Byte) : HostOp := .xfer (busWord true a v) none

/-- `rd ADDR` or `rd ADDR -> NAME`: the word `{0, ADDR, 0x00}` (R100). -/
def rdOp (a : Byte) (dest : Option HostName) : HostOp := .xfer (busWord false a 0x00) dest

/-- The byte address `k` above `a`; none above 0xFF, since an address never wraps (R71; log entry 9). -/
def addrPlus (a : Byte) (k : Nat) : Option Byte :=
  if a.toNat + k < 256 then some (a + BitVec.ofNat 8 k) else none

/-- The writes `wr A+j, bytes[j]`, from offset `k` on, in increasing address order. -/
def writesFrom (k : Nat) : List Byte → List HostOp
  | [] => []
  | v :: vs => wrOp (BitVec.ofNat 8 k) v :: writesFrom (k + 1) vs

/-- The expansion of a line (R100, R102); none where the assembler rejects it. -/
def expand : Line → Option (List HostOp)
  | .wr a v => some [wrOp a v]
  | .rd a dest => some [rdOp a dest]
  | .poll a m v => some [.poll a m v]
  | .cmd m => do
    let v ← mnemonicByte m
    return [wrOp Config.cmdAddr v]
  | .wait => some [.poll Config.statusAddr 0x80 0x00]
  | .wr16 a v => do
    let a1 ← addrPlus a 1
    return [wrOp a (v.extractLsb' 8 8), wrOp a1 (v.extractLsb' 0 8)]
  | .rd16 a n => do
    let a1 ← addrPlus a 1
    return [rdOp a (some { base := n, part := .hi }), rdOp a1 (some { base := n, part := .lo })]
  | .rd24 a n => do
    let a1 ← addrPlus a 1
    let a2 ← addrPlus a 2
    return [rdOp a (some { base := n, part := .b2 }), rdOp a1 (some { base := n, part := .b1 }),
      rdOp a2 (some { base := n, part := .b0 })]
  | .load26 bytes => some (writesFrom 0 bytes.toList)

/-- A host program from its lines, in order; none if a line is rejected. -/
def assemble : List Line → Option (List HostOp)
  | [] => some []
  | l :: ls => do
    let ops ← expand l
    let rest ← assemble ls
    return ops ++ rest

end Sys2Proof.Machine
end

