-- ==== Sys2Proof/Machine/Consumer.lean ====
section
/-! DEFINITION. The physical values a consumer forms from the record, as exact rationals (spec/43_decode.md R220).
They are outside the block; no step computes them. -/

namespace Sys2Proof.Machine

/-- The values of R220. -/
structure Physical where
  tempC : Rat
  humPercent : Rat
  gust : Rat
  avg : Rat
  dirDeg : Rat
  rainMm : Rat
  lightLux : Rat
  lightKlx : Rat
  uvIndex : Rat
  deriving DecidableEq, Repr

/-- "formed by the consumer from the registers as exact rationals" (R220). -/
def physical (r : Record) : Physical :=
  { tempC := (r.temp.toInt : Rat) / 10
    humPercent := r.hum.toNat
    gust := (r.wgust.toNat : Rat) / 10
    avg := (r.wavg.toNat : Rat) / 10
    dirDeg := r.wdir.toNat
    rainMm := (r.rain.toNat : Rat) / 10
    lightLux := r.lux.toNat
    lightKlx := (r.lux.toNat : Rat) / 1000
    uvIndex := (r.uv.toNat : Rat) / 10 }

end Sys2Proof.Machine
end

