-- ==== Sys2Proof/Safety.lean ====
section
/-! DEFINITION. What the statements are said in: who moves next, what a command may write, and the invariant of every
run (spec/00_scope.md R13, spec/10_state.md R26 to R54, spec/40_issue_and_control.md R125). -/

namespace Sys2Proof.Safety

open Sys2Proof.Machine

/-- The agent the next step moves: the schedule's, or, when it names none, the engine if it is busy and else the
host (R13, R124, R290). -/
def mover (s : State) : Turn :=
  match s.sched with
  | [] => if s.blk.busy then .engine else .host
  | t :: _ => t

/-- The addresses from `lo` to `hi`. -/
def within (lo hi a : Byte) : Prop := lo.toNat ≤ a.toNat ∧ a.toNat ≤ hi.toNat

/-- The addresses whose bytes a command's own rule writes, beside `STATUS` (R130, R131, R170, R175, R233). -/
def resultAddr : Instr → Byte → Prop
  | .nop, _ => False
  | .decode, a => within 0x4C 0x68 a
  | .digest _, a => within 0x4C 0x4D a
  | .lstep _, a => within 0x4A 0x4B a
  | .clear, a => within 0x4C 0x68 a
  | .rd _, _ => False
  | .wr _ _, _ => False

/-- The outside of the block is the same: the host's program and names, the last byte read, the schedule. -/
def SameOutside (s t : State) : Prop :=
  t.rdata = s.rdata ∧ t.prog = s.prog ∧ t.names = s.names ∧ t.sched = s.sched

/-- The registers only the host writes, and that a commit reads (R123, R127). -/
def SameInputs (b c : Block) : Prop :=
  c.payload = b.payload ∧ c.gen = b.gen ∧ c.key = b.key ∧ c.doff = b.doff ∧ c.dlen = b.dlen

/-- The registers a commit writes, but `BUSY` and `DONE` (R131, R170, R175, R233). -/
def SameResults (b c : Block) : Prop :=
  c.code = b.code ∧ c.valid = b.valid ∧ c.complete = b.complete ∧ c.dsum = b.dsum ∧ c.chk = b.chk ∧
    c.lstate = b.lstate ∧ c.record = b.record

/-- A pending command is one that was accepted: it decodes, and a DIGEST's range lies in the payload (R122, R125,
R243). -/
def PendingAccepted (b : Block) : Prop :=
  b.busy = true → ∃ i, decodeCmd b.pend = .instr i ∧ acceptable i b = true

/-- What the rules say of the status registers in every run. -/
structure StatusInv (b : Block) : Prop where
  /-- R28. -/
  complete_eq_valid : b.complete = b.valid
  /-- R27. -/
  valid_iff_ok : b.valid = true ↔ b.code = 1
  /-- R26: only 0, 1 and 4 are ever written. -/
  code_written : b.code = 0 ∨ b.code = 1 ∨ b.code = 4
  /-- R29, R32. -/
  err_iff_errcode : b.err = true ↔ b.errcode ≠ 0
  /-- R32: 5 to 255 are never written. -/
  errcode_written : b.errcode.toNat ≤ 4
  /-- R122, R242: while a command is pending only BUSY_WRITE can be recorded. -/
  busy_errcode : b.busy = true → b.errcode = 0 ∨ b.errcode = 4
  /-- R30, R31. -/
  busy_not_done : b.busy = true → b.done = false

/-- The legal values of the record registers (R42 to R54, R217). -/
structure RecordInv (r : Record) : Prop where
  stype_le : r.stype.toNat ≤ 0x0F
  sinfo_le : r.sinfo.toNat ≤ 0x1F
  flags_le : r.flags.toNat ≤ 0x0F
  fvalid_written : r.fvalid = 0x00 ∨ r.fvalid = 0xFF
  traw_le : r.traw.toNat ≤ 1665
  temp_of_traw : r.temp.toInt = if r.traw.toNat > 600 then (r.traw.toNat : Int) - 1000 else r.traw.toNat
  temp_range : -399 ≤ r.temp.toInt ∧ r.temp.toInt ≤ 665
  hum_le : r.hum.toNat ≤ 165
  wdir_le : r.wdir.toNat ≤ 1665
  wgust_le : r.wgust.toNat ≤ 1665
  wavg_le : r.wavg.toNat ≤ 1665
  rain_le : r.rain.toNat ≤ 1666665
  lux_le : r.lux.toNat ≤ 1666665
  uv_le : r.uv.toNat ≤ 1665
  /-- A record that no OK DECODE wrote since reset or CLEAR is zero (R40, R45, R131). -/
  unwritten_zero : r.fvalid = 0x00 → r = Record.zero
  /-- BATT_OK is the negation of battery-low of the flags nibble (R207). -/
  batt_of_flags : r.fvalid = 0xFF → (battOkOf r.sinfo = true ↔ r.flags &&& 0x06 ≠ 0x06)

/-- The invariant: it holds at reset and every step keeps it. -/
structure Inv (s : State) : Prop where
  pending : PendingAccepted s.blk
  status : StatusInv s.blk
  record : RecordInv s.blk.record
  /-- A valid record is one an OK DECODE wrote (R27, R45). -/
  valid_written : s.blk.valid = true → s.blk.record.fvalid = 0xFF

end Sys2Proof.Safety
end

