-- ==== Sys2Proof/Certificates/Slice0/Obligations.lean ====
section
/-! DEFINITION. The statements for the provers, each from numbered rules of spec/. -/

open Sys2Proof Sys2Proof.Machine Sys2Proof.Safety

/-! ### Encoding -/

/-- Decoding the encoding of a well-formed instruction gives it back, with every operand (30_encoding.md §1, §2). -/
def Obligations.DecodeUndoesEncode : Prop :=
  ∀ i : Instr, i.WellFormed = true → decode (encode i) = .instr i

/-- A canonical word that decodes is the encoding of what it decodes to, which is well formed: no two canonical
words stand for one instruction (R98, R99). -/
def Obligations.EncodeUndoesDecode : Prop :=
  ∀ (c : Code) (i : Instr), c.canonical = true → decode c = .instr i → encode i = c ∧ i.WellFormed = true

/-- Words written out from the encodings of R91, R92 and R99 decode to the instructions they stand for. -/
def Obligations.WrittenOutWordsDecode : Prop :=
  decodeTableWord 8 0b00000000 = some .nop ∧
  decodeTableWord 8 0b00010000 = some .decode ∧
  decodeTableWord 8 0b00100001 = some (.digest .dw) ∧
  decodeTableWord 8 0b00111111 = some (.lstep 16) ∧
  decodeTableWord 8 0b01000000 = some .clear ∧
  decodeTableWord 24 0b00101000000000000 = some (.rd 0x50) ∧
  decodeTableWord 24 0b10100000000010000 = some (.wr 0x40 0x10)

/-- R98: the census of the 256 command bytes. -/
def Obligations.CommandByteCensus : Prop :=
  decodeCmd 0x00 = .instr .nop ∧ decodeCmd 0x10 = .instr .decode ∧
  decodeCmd 0x20 = .instr (.digest .raw) ∧ decodeCmd 0x21 = .instr (.digest .dw) ∧
  (∀ n : Nat, 1 ≤ n → n ≤ 16 → decodeCmd (BitVec.ofNat 8 (0x30 + (n - 1))) = .instr (.lstep n)) ∧
  decodeCmd 0x40 = .instr .clear ∧
  (∀ v : Byte, decodeCmd v = .reject .badArg ↔
    within 0x01 0x0F v ∨ within 0x11 0x1F v ∨ within 0x22 0x2F v ∨ within 0x41 0x4F v) ∧
  (∀ v : Byte, decodeCmd v = .reject .illegalOp ↔ within 0x50 0xFF v) ∧
  ((List.range 256).countP fun v => decodeCmd (BitVec.ofNat 8 v) == .reject .badArg) = 59 ∧
  ((List.range 256).countP fun v => decodeCmd (BitVec.ofNat 8 v) == .reject .illegalOp) = 176 ∧
  ((List.range 256).countP fun v =>
    decodeCmd (BitVec.ofNat 8 v) != .reject .badArg && decodeCmd (BitVec.ofNat 8 v) != .reject .illegalOp) = 21

/-! ### Bus reads and writes -/

/-- R65: RD completes for every address and state, returns the byte of the map, and changes no state of the block. -/
def Obligations.ReadReturnsMapByte : Prop :=
  ∀ (s : State) (a : Byte),
    exec (.rd a) s = .next { s with rdata := memRead a s.blk } ∧
    (let b := s.blk
     let r := s.blk.record
     (∀ i : Fin 26, memRead (BitVec.ofNat 8 i) b = b.payload[i]) ∧
     (∀ i : Fin 26, memRead (BitVec.ofNat 8 (0x20 + i)) b = b.payload[i] ^^^ 0xAA) ∧
     memRead 0x40 b = 0x00 ∧
     memRead 0x41 b = BitVec.ofBool b.busy ++ BitVec.ofBool b.done ++ BitVec.ofBool b.err ++
       BitVec.ofBool b.complete ++ BitVec.ofBool b.valid ++ b.code ∧
     memRead 0x42 b = b.errcode ∧
     memRead 0x44 b = b.gen.extractLsb' 8 8 ∧ memRead 0x45 b = b.gen.extractLsb' 0 8 ∧
     memRead 0x46 b = b.key.extractLsb' 8 8 ∧ memRead 0x47 b = b.key.extractLsb' 0 8 ∧
     memRead 0x48 b = b.doff ∧ memRead 0x49 b = b.dlen ∧
     memRead 0x4A b = b.lstate.extractLsb' 8 8 ∧ memRead 0x4B b = b.lstate.extractLsb' 0 8 ∧
     memRead 0x4C b = b.dsum.extractLsb' 8 8 ∧ memRead 0x4D b = b.dsum.extractLsb' 0 8 ∧
     memRead 0x4E b = b.chk.extractLsb' 8 8 ∧ memRead 0x4F b = b.chk.extractLsb' 0 8 ∧
     memRead 0x50 b = r.id.extractLsb' 8 8 ∧ memRead 0x51 b = r.id.extractLsb' 0 8 ∧
     memRead 0x52 b = r.stype &&& 0x0F ∧ memRead 0x53 b = r.sinfo &&& 0x1F ∧ memRead 0x54 b = r.flags &&& 0x0F ∧
     memRead 0x55 b = r.fvalid ∧
     memRead 0x56 b = r.wdir.extractLsb' 8 8 ∧ memRead 0x57 b = r.wdir.extractLsb' 0 8 ∧
     memRead 0x58 b = r.wgust.extractLsb' 8 8 ∧ memRead 0x59 b = r.wgust.extractLsb' 0 8 ∧
     memRead 0x5A b = r.wavg.extractLsb' 8 8 ∧ memRead 0x5B b = r.wavg.extractLsb' 0 8 ∧
     memRead 0x5C b = r.rain.extractLsb' 16 8 ∧ memRead 0x5D b = r.rain.extractLsb' 8 8 ∧
     memRead 0x5E b = r.rain.extractLsb' 0 8 ∧ memRead 0x5F b = r.hum ∧
     memRead 0x60 b = r.temp.extractLsb' 8 8 ∧ memRead 0x61 b = r.temp.extractLsb' 0 8 ∧
     memRead 0x62 b = r.lux.extractLsb' 16 8 ∧ memRead 0x63 b = r.lux.extractLsb' 8 8 ∧
     memRead 0x64 b = r.lux.extractLsb' 0 8 ∧
     memRead 0x65 b = r.uv.extractLsb' 8 8 ∧ memRead 0x66 b = r.uv.extractLsb' 0 8 ∧
     memRead 0x67 b = r.traw.extractLsb' 8 8 ∧ memRead 0x68 b = r.traw.extractLsb' 0 8) ∧
    (within 0x1A 0x1F a ∨ within 0x3A 0x3F a ∨ a = 0x43 ∨ within 0x69 0xFF a → memRead a s.blk = 0x00)

/-- R62: a reserved address reads 0x00 with no effect, and a write to one has no effect, busy or not. -/
def Obligations.ReservedAddressesReadZeroIgnoreWrites : Prop :=
  ∀ (s : State) (a v : Byte),
    within 0x1A 0x1F a ∨ within 0x3A 0x3F a ∨ a = 0x43 ∨ within 0x69 0xFF a →
      exec (.rd a) s = .next { s with rdata := 0x00 } ∧ exec (.wr a v) s = .next s

/-- R63: every multi-byte register is the concatenation of its bytes, the most significant at the lowest address. -/
def Obligations.RegistersAreBigEndian : Prop :=
  ∀ b : Block,
    b.gen = memRead 0x44 b ++ memRead 0x45 b ∧ b.key = memRead 0x46 b ++ memRead 0x47 b ∧
    b.lstate = memRead 0x4A b ++ memRead 0x4B b ∧ b.dsum = memRead 0x4C b ++ memRead 0x4D b ∧
    b.chk = memRead 0x4E b ++ memRead 0x4F b ∧ b.record.id = memRead 0x50 b ++ memRead 0x51 b ∧
    b.record.wdir = memRead 0x56 b ++ memRead 0x57 b ∧ b.record.wgust = memRead 0x58 b ++ memRead 0x59 b ∧
    b.record.wavg = memRead 0x5A b ++ memRead 0x5B b ∧
    b.record.rain = memRead 0x5C b ++ memRead 0x5D b ++ memRead 0x5E b ∧
    b.record.temp = memRead 0x60 b ++ memRead 0x61 b ∧
    b.record.lux = memRead 0x62 b ++ memRead 0x63 b ++ memRead 0x64 b ∧
    b.record.uv = memRead 0x65 b ++ memRead 0x66 b ∧ b.record.traw = memRead 0x67 b ++ memRead 0x68 b

/-- R66: WR completes for every address, byte and state: a command, a dropped write, a store of one byte, or
nothing. What `IssueCommand` does is `Obligations.IssueCommandOutcomes`. -/
def Obligations.WriteEffectByAddress : Prop :=
  ∀ (s : State) (a v : Byte),
    (a = 0x40 → exec (.wr a v) s = .next (s.withBlk (issueCommand v s.blk))) ∧
    (s.blk.busy = true → within 0x00 0x19 a ∨ within 0x44 0x4B a →
      exec (.wr a v) s = .next (s.withBlk { s.blk with err := true, errcode := 4 })) ∧
    (s.blk.busy = false →
      (∀ h : a.toNat < 26, exec (.wr a v) s =
        .next (s.withBlk { s.blk with payload := s.blk.payload.set a.toNat v h })) ∧
      (a = 0x44 → exec (.wr a v) s = .next (s.withBlk { s.blk with gen := v ++ s.blk.gen.extractLsb' 0 8 })) ∧
      (a = 0x45 → exec (.wr a v) s = .next (s.withBlk { s.blk with gen := s.blk.gen.extractLsb' 8 8 ++ v })) ∧
      (a = 0x46 → exec (.wr a v) s = .next (s.withBlk { s.blk with key := v ++ s.blk.key.extractLsb' 0 8 })) ∧
      (a = 0x47 → exec (.wr a v) s = .next (s.withBlk { s.blk with key := s.blk.key.extractLsb' 8 8 ++ v })) ∧
      (a = 0x48 → exec (.wr a v) s = .next (s.withBlk { s.blk with doff := v })) ∧
      (a = 0x49 → exec (.wr a v) s = .next (s.withBlk { s.blk with dlen := v })) ∧
      (a = 0x4A → exec (.wr a v) s =
        .next (s.withBlk { s.blk with lstate := v ++ s.blk.lstate.extractLsb' 0 8 })) ∧
      (a = 0x4B → exec (.wr a v) s =
        .next (s.withBlk { s.blk with lstate := s.blk.lstate.extractLsb' 8 8 ++ v }))) ∧
    (a ≠ 0x40 → ¬ within 0x00 0x19 a → ¬ within 0x44 0x4B a → exec (.wr a v) s = .next s)

/-- The frame of a store: after a write to a writable address while idle, that address reads the byte written, the
de-whitened window shows a payload write, every other address reads as before, and nothing hidden changes
(R66, R68, R150). -/
def Obligations.StoreChangesOneByte : Prop :=
  ∀ (s : State) (a v : Byte), s.blk.busy = false → within 0x00 0x19 a ∨ within 0x44 0x4B a →
    ∃ t, exec (.wr a v) s = .next t ∧ memRead a t.blk = v ∧
      (within 0x00 0x19 a → memRead (a + 0x20) t.blk = v ^^^ 0xAA) ∧
      (∀ x, x ≠ a → (within 0x00 0x19 a → x ≠ a + 0x20) → memRead x t.blk = memRead x s.blk) ∧
      t.blk.pend = s.blk.pend ∧ t.blk.record = s.blk.record ∧ SameOutside s t

/-- R68, last sentence: a store while idle is idempotent. -/
def Obligations.StoreIsIdempotent : Prop :=
  ∀ (s : State) (a v : Byte), s.blk.busy = false → within 0x00 0x19 a ∨ within 0x44 0x4B a →
    ∃ t, exec (.wr a v) s = .next t ∧ exec (.wr a v) t = .next t

/-- R67: a write to a read-only or reserved address changes no state, busy or not. -/
def Obligations.ReadOnlyWritesAreIgnored : Prop :=
  ∀ (s : State) (a v : Byte),
    within 0x20 0x39 a ∨ a = 0x41 ∨ a = 0x42 ∨ within 0x4C 0x68 a ∨ within 0x1A 0x1F a ∨ within 0x3A 0x3F a ∨
      a = 0x43 ∨ within 0x69 0xFF a →
      exec (.wr a v) s = .next s

/-- R242: while a command is pending, a write to CMD or to a writable register sets ERR and ERRCODE and changes
nothing else; the command then commits as it would have; a write to another address is ignored. -/
def Obligations.BusyWriteIsDropped : Prop :=
  ∀ (s : State) (a v : Byte), s.blk.busy = true →
    (a = 0x40 ∨ within 0x00 0x19 a ∨ within 0x44 0x4B a →
      exec (.wr a v) s = .next (s.withBlk { s.blk with err := true, errcode := 4 }) ∧
      ∀ (i : Instr) (u : State), i.isCommand = true → exec i s = .next u →
        exec i (s.withBlk { s.blk with err := true, errcode := 4 }) =
          .next (u.withBlk { u.blk with err := true, errcode := 4 })) ∧
    (a ≠ 0x40 → ¬ within 0x00 0x19 a → ¬ within 0x44 0x4B a → exec (.wr a v) s = .next s)

/-! ### Issue -/

/-- R122, R250: what a write to CMD does, in the order of the checks. -/
def Obligations.IssueCommandOutcomes : Prop :=
  ∀ (s : State) (v : Byte),
    (s.blk.busy = true →
      exec (.wr 0x40 v) s = .next (s.withBlk { s.blk with err := true, errcode := 4 })) ∧
    (s.blk.busy = false → 5 ≤ v.toNat / 16 →
      exec (.wr 0x40 v) s = .next (s.withBlk { s.blk with err := true, errcode := 1, done := true })) ∧
    (s.blk.busy = false →
      within 0x01 0x0F v ∨ within 0x11 0x1F v ∨ within 0x22 0x2F v ∨ within 0x41 0x4F v →
      exec (.wr 0x40 v) s = .next (s.withBlk { s.blk with err := true, errcode := 2, done := true })) ∧
    (s.blk.busy = false → v = 0x20 ∨ v = 0x21 → 26 < s.blk.doff.toNat + s.blk.dlen.toNat →
      exec (.wr 0x40 v) s = .next (s.withBlk { s.blk with err := true, errcode := 3, done := true })) ∧
    (s.blk.busy = false →
      v = 0x00 ∨ v = 0x10 ∨ ((v = 0x20 ∨ v = 0x21) ∧ s.blk.doff.toNat + s.blk.dlen.toNat ≤ 26) ∨
        within 0x30 0x3F v ∨ v = 0x40 →
      exec (.wr 0x40 v) s = .next (s.withBlk
        { s.blk with err := false, errcode := 0, done := false, busy := true, pend := v }))

/-- R241: a rejected command sets ERR, ERRCODE and DONE; BUSY stays 0, and PEND and every other register are
unchanged. -/
def Obligations.RejectionEffect : Prop :=
  ∀ (s : State) (v : Byte) (c : Byte), s.blk.busy = false →
    (c = 1 ∧ within 0x50 0xFF v) ∨
    (c = 2 ∧ (within 0x01 0x0F v ∨ within 0x11 0x1F v ∨ within 0x22 0x2F v ∨ within 0x41 0x4F v)) ∨
    (c = 3 ∧ (v = 0x20 ∨ v = 0x21) ∧ 26 < s.blk.doff.toNat + s.blk.dlen.toNat) →
    ∃ t, exec (.wr 0x40 v) s = .next t ∧ t.blk.err = true ∧ t.blk.errcode = c ∧ t.blk.done = true ∧
      t.blk.busy = false ∧ t.blk.pend = s.blk.pend ∧ SameInputs s.blk t.blk ∧ SameResults s.blk t.blk ∧
      SameOutside s t

/-- R243: the range check is exact: a DIGEST byte is rejected with code 3 when the sum of DOFF and DLEN exceeds 26,
and accepted else. -/
def Obligations.RangeCheckIsExact : Prop :=
  ∀ (s : State) (v : Byte), s.blk.busy = false → v = 0x20 ∨ v = 0x21 →
    (26 < s.blk.doff.toNat + s.blk.dlen.toNat →
      exec (.wr 0x40 v) s = .next (s.withBlk { s.blk with err := true, errcode := 3, done := true })) ∧
    (s.blk.doff.toNat + s.blk.dlen.toNat ≤ 26 →
      exec (.wr 0x40 v) s = .next (s.withBlk
        { s.blk with err := false, errcode := 0, done := false, busy := true, pend := v }))

/-! ### The commands' own effects -/

/-- R130: NOP, its acceptance, its commit, its rejections, and its example. -/
def Obligations.NopOnlyCompletes : Prop :=
  ∀ s : State,
    exec .nop s = .next (s.withBlk { s.blk with busy := false, done := true }) ∧
    (s.blk.busy = false → exec (.wr 0x40 0x00) s = .next (s.withBlk
      { s.blk with err := false, errcode := 0, done := false, busy := true, pend := 0x00 })) ∧
    (s.blk.busy = true →
      exec (.wr 0x40 0x00) s = .next (s.withBlk { s.blk with err := true, errcode := 4 })) ∧
    (∀ v, s.blk.busy = false → within 0x01 0x0F v →
      exec (.wr 0x40 v) s = .next (s.withBlk { s.blk with err := true, errcode := 2, done := true })) ∧
    (memRead 0x41 s.blk = 0x60 → ∃ t u, exec (.wr 0x40 0x00) s = .next t ∧ exec .nop t = .next u ∧
      memRead 0x41 u.blk = 0x40 ∧ memRead 0x42 u.blk = 0x00)

/-- R131: CLEAR, its acceptance, its commit, its rejections, and its example; it touches
no input register. -/
def Obligations.ClearZeroesResults : Prop :=
  ∀ s : State,
    exec .clear s = .next (s.withBlk
      { s.blk with
        busy := false, done := true, code := 0, valid := false, complete := false, dsum := 0, chk := 0,
        record := { id := 0, stype := 0, sinfo := 0, flags := 0, fvalid := 0, traw := 0, temp := 0, hum := 0,
                    wdir := 0, wgust := 0, wavg := 0, rain := 0, lux := 0, uv := 0 } }) ∧
    (∃ t, exec .clear s = .next t ∧ ∀ a, within 0x4C 0x68 a → memRead a t.blk = 0x00) ∧
    (s.blk.busy = false → exec (.wr 0x40 0x40) s = .next (s.withBlk
      { s.blk with err := false, errcode := 0, done := false, busy := true, pend := 0x40 })) ∧
    (s.blk.busy = true →
      exec (.wr 0x40 0x40) s = .next (s.withBlk { s.blk with err := true, errcode := 4 })) ∧
    (∀ v, s.blk.busy = false → within 0x41 0x4F v →
      exec (.wr 0x40 v) s = .next (s.withBlk { s.blk with err := true, errcode := 2, done := true })) ∧
    (memRead 0x41 s.blk = 0x59 → ∃ t u, exec (.wr 0x40 0x40) s = .next t ∧ exec .clear t = .next u ∧
      memRead 0x41 u.blk = 0x40)

/-- R170: DIGEST over either view of any accepted range writes DSUM and, but for BUSY and DONE, nothing else. -/
def Obligations.DigestWritesDsum : Prop :=
  ∀ (s : State) (v : View), s.blk.doff.toNat + s.blk.dlen.toNat ≤ 26 →
    exec (.digest v) s = .next (s.withBlk
      { s.blk with
        busy := false, done := true,
        dsum := digest16
          ((List.range s.blk.dlen.toNat).map fun i =>
            s.blk.payload.toList.getD (s.blk.doff.toNat + i) 0 ^^^ (if v = .dw then 0xAA else 0x00))
          s.blk.dlen.toNat s.blk.gen s.blk.key }) ∧
    (s.blk.dlen = 0 ∨ s.blk.key = 0 → ∃ t, exec (.digest v) s = .next t ∧ t.blk.dsum = 0)

/-- A DIGEST commit whose range leaves the payload has no effect in the spec and stops by name; no run reaches one
(`Obligations.InvariantStateNeverStops`; log entry 7). -/
def Obligations.DigestOutOfRangeStops : Prop :=
  ∀ (s : State) (v : View), 26 < s.blk.doff.toNat + s.blk.dlen.toNat →
    exec (.digest v) s = .fault .digestOutOfRange

/-- R175: LSTEP advances LSTATE by its step count; its acceptance, its one rejection, its corner cases and
examples. -/
def Obligations.LstepAdvancesLstate : Prop :=
  ∀ (s : State) (n : Nat),
    exec (.lstep n) s = .next (s.withBlk
      { s.blk with
        busy := false, done := true, lstate := (fun k => lfsrStep k s.blk.gen)^[n] s.blk.lstate }) ∧
    (∀ arg : Nibble, s.blk.busy = false → exec (.wr 0x40 (0x3#4 ++ arg)) s = .next (s.withBlk
      { s.blk with err := false, errcode := 0, done := false, busy := true, pend := 0x3#4 ++ arg })) ∧
    (∀ arg : Nibble, s.blk.busy = true →
      exec (.wr 0x40 (0x3#4 ++ arg)) s = .next (s.withBlk { s.blk with err := true, errcode := 4 })) ∧
    (∀ arg : Nibble, decodeCmd (0x3#4 ++ arg) = .instr (.lstep (arg.toNat + 1))) ∧
    (∃ t, exec (.lstep n) s = .next t ∧
      (s.blk.lstate = 0 → t.blk.lstate = 0) ∧
      (s.blk.gen = 0 → t.blk.lstate = s.blk.lstate >>> n) ∧
      (s.blk.lstate = 1 → s.blk.gen = 0x8810 → n = 1 → t.blk.lstate = 0x8810) ∧
      (∀ j, s.blk.lstate = keyStream s.blk.gen s.blk.key j →
        t.blk.lstate = keyStream s.blk.gen s.blk.key (j + n)) ∧
      (s.blk.lstate = 0xBA95 → s.blk.gen = 0x8810 →
        (n = 1 → t.blk.lstate = 0xD55A) ∧ (n = 8 → t.blk.lstate = 0x36EC) ∧ (n = 16 → t.blk.lstate = 0x6AFB)))

/-- R233: DECODE, all it writes on INVALID, on DIG_ERR and on OK, field by field; its acceptance, its rejections and
its example. -/
def Obligations.DecodeEffect : Prop :=
  ∀ s : State,
    let p := s.blk.payload
    let w : Fin 26 → Byte := fun i => p[i] ^^^ 0xAA
    let hi : Fin 26 → Nat := fun i => (w i).toNat / 16
    let lo : Fin 26 → Nat := fun i => (w i).toNat % 16
    let chk : Word16 := w 0 ++ w 1
    let dig := digest16 (List.ofFn fun j : Fin 23 => w ⟨j.val + 2, by omega⟩) 23 0x8810 0xBA95
    (p[21] = 0x00 → exec .decode s = .next (s.withBlk
      { s.blk with busy := false, done := true, code := 0, valid := false, complete := false })) ∧
    (p[21] ≠ 0x00 → chk ^^^ dig ≠ 0x6DF1 → exec .decode s = .next (s.withBlk
      { s.blk with
        busy := false, done := true, code := 4, valid := false, complete := false, dsum := dig, chk := chk })) ∧
    (p[21] ≠ 0x00 → chk ^^^ dig = 0x6DF1 → ∃ r : Record,
      exec .decode s = .next (s.withBlk
        { s.blk with
          busy := false, done := true, code := 1, valid := true, complete := true, dsum := dig, chk := chk,
          record := r }) ∧
      r.id = w 2 ++ w 3 ∧ r.stype = p[6] >>> 4 ∧
      r.sinfo = (if (w 15) &&& 0x06 = 0x06 then 0x00 else 0x10) ||| (if (w 6).getLsbD 3 then 0x00 else 0x08) |||
        (w 6 &&& 0x07) ∧
      r.flags = w 15 &&& 0x0F ∧ r.fvalid = 0xFF ∧
      r.wdir.toNat = 100 * hi 4 + 10 * lo 4 + hi 5 ∧
      r.wgust.toNat = 100 * hi 7 + 10 * lo 7 + hi 8 ∧
      r.wavg.toNat = 100 * lo 8 + 10 * hi 9 + lo 9 ∧
      r.rain.toNat = 100000 * hi 10 + 10000 * lo 10 + 1000 * hi 11 + 100 * lo 11 + 10 * hi 12 + lo 12 ∧
      r.traw.toNat = 100 * hi 14 + 10 * lo 14 + hi 15 ∧
      r.temp.toInt = (if r.traw.toNat > 600 then (r.traw.toNat : Int) - 1000 else r.traw.toNat) ∧
      r.hum.toNat = 10 * hi 16 + lo 16 ∧
      r.lux.toNat = 100000 * hi 17 + 10000 * lo 17 + 1000 * hi 18 + 100 * lo 18 + 10 * hi 19 + lo 19 ∧
      r.uv.toNat = 100 * hi 20 + 10 * lo 20 + hi 21) ∧
    (s.blk.busy = false → exec (.wr 0x40 0x10) s = .next (s.withBlk
      { s.blk with err := false, errcode := 0, done := false, busy := true, pend := 0x10 })) ∧
    (s.blk.busy = true →
      exec (.wr 0x40 0x10) s = .next (s.withBlk { s.blk with err := true, errcode := 4 })) ∧
    (∀ v, s.blk.busy = false → within 0x11 0x1F v →
      exec (.wr 0x40 v) s = .next (s.withBlk { s.blk with err := true, errcode := 2, done := true })) ∧
    (p = #v[0xC4, 0xD6, 0x3A, 0xC5, 0xBD, 0xFA, 0x18, 0xAA, 0xAA, 0xAA, 0xAA, 0xAB, 0xFC,
        0xAA, 0x98, 0xDA, 0x89, 0xA3, 0x2F, 0xEC, 0xAF, 0x9A, 0xAA, 0xAA, 0xAA, 0x00] →
      chk = 0x6E7C ∧ dig = 0x038D ∧ ∃ t, exec .decode s = .next t ∧ t.blk.code = 1 ∧
        t.blk.record.id = 0x906F ∧ t.blk.record.temp.toInt = 327)

/-- R198: step order decides the status. -/
def Obligations.DecodeStatusOrder : Prop :=
  ∀ s : State, ∃ t, exec .decode s = .next t ∧
    (s.blk.payload[21] = 0x00 → t.blk.code = 0) ∧
    (s.blk.payload[21] ≠ 0x00 → checksumField s.blk.payload ^^^ frameDigest s.blk.payload ≠ 0x6DF1 →
      t.blk.code = 4) ∧
    (s.blk.payload[21] ≠ 0x00 → checksumField s.blk.payload ^^^ frameDigest s.blk.payload = 0x6DF1 →
      t.blk.code = 1)

/-- R234: on INVALID and DIG_ERR every record byte reads as before, and the record is marked neither valid nor
complete. -/
def Obligations.FailedDecodeKeepsRecord : Prop :=
  ∀ s : State, ∃ t, exec .decode s = .next t ∧
    (t.blk.code ≠ 1 → t.blk.record = s.blk.record ∧ t.blk.valid = false ∧ t.blk.complete = false ∧
      ∀ a, within 0x50 0x68 a → memRead a t.blk = memRead a s.blk)

/-- R235: DSUM and CHK after DECODE. -/
def Obligations.DecodeExposesDigestAndChecksum : Prop :=
  ∀ s : State, ∃ t, exec .decode s = .next t ∧
    (t.blk.code = 0 → t.blk.dsum = s.blk.dsum ∧ t.blk.chk = s.blk.chk) ∧
    (t.blk.code ≠ 0 → t.blk.dsum = frameDigest s.blk.payload ∧ t.blk.chk = checksumField s.blk.payload) ∧
    (t.blk.code = 4 → t.blk.chk ^^^ t.blk.dsum ≠ 0x6DF1) ∧
    (t.blk.code = 1 → t.blk.chk ^^^ t.blk.dsum = 0x6DF1)

/-- DECODE is a function of PAYLOAD alone (R126, R191, R236): states that differ in anything else get the same
status, and the same digest, checksum and record wherever they are written. -/
def Obligations.DecodeDependsOnPayloadAlone : Prop :=
  ∀ s u : State, u.blk.payload = s.blk.payload →
    ∃ t w, exec .decode s = .next t ∧ exec .decode u = .next w ∧
      w.blk.code = t.blk.code ∧ w.blk.valid = t.blk.valid ∧ w.blk.complete = t.blk.complete ∧
      (t.blk.code ≠ 0 → w.blk.dsum = t.blk.dsum ∧ w.blk.chk = t.blk.chk) ∧
      (t.blk.code = 1 → w.blk.record = t.blk.record)

/-- R170, last corner case: under the format configuration, DIGEST.DW gives the digest DECODE computes. -/
def Obligations.FormatDigestEqualsDecodeDigest : Prop :=
  ∀ s : State, s.blk.doff = 2 → s.blk.dlen = 23 → s.blk.gen = 0x8810 → s.blk.key = 0xBA95 →
    s.blk.payload[21] ≠ 0x00 →
    ∃ t u, exec (.digest .dw) s = .next t ∧ exec .decode s = .next u ∧ t.blk.dsum = u.blk.dsum

/-! ### De-whitener, digest, validator, converters -/

/-- R150, R151: the window shows every payload byte with bits 7, 5, 3 and 1 inverted, and de-whitening twice gives
the byte back. -/
def Obligations.DewhiteningIsInvolutiveView : Prop :=
  (∀ (b : Block) (i : Fin 26),
    memRead (BitVec.ofNat 8 (0x20 + i)) b = memRead (BitVec.ofNat 8 i) b ^^^ 0xAA ∧
    ∀ k : Fin 8, (memRead (BitVec.ofNat 8 (0x20 + i)) b).getLsbD k =
      ((memRead (BitVec.ofNat 8 i) b).getLsbD k ^^ decide (k.val % 2 = 1))) ∧
  ∀ v : Byte, (v ^^^ 0xAA) ^^^ 0xAA = v

/-- R160: the LFSR step. -/
def Obligations.LfsrStepShiftsThenXors : Prop :=
  ∀ k g : Word16,
    (k.getLsbD 0 = true → lfsrStep k g = (k >>> 1) ^^^ g) ∧
    (k.getLsbD 0 = false → lfsrStep k g = k >>> 1) ∧
    (k >>> 1).getLsbD 15 = false ∧
    (lfsrStep k 0x8810).getLsbD 15 = k.getLsbD 0

/-- R163: the serial digest and the XOR tree over the keystream agree on every input. -/
def Obligations.SerialDigestEqualsXorTree : Prop :=
  ∀ (bytes : List Byte) (len : Nat) (gen key : Word16), len ≤ bytes.length →
    keyStream gen key 0 = key ∧
    (∀ j, keyStream gen key (j + 1) = lfsrStep (keyStream gen key j) gen) ∧
    digest16 bytes len gen key =
      (List.range (8 * len)).foldl
        (fun acc j => acc ^^^
          (if (bytes.getD (j / 8) 0).getLsbD (7 - j % 8) then keyStream gen key j else 0x0000)) 0x0000

/-- R164, but its last bullet: linearity in the data, and the zero corners. -/
def Obligations.DigestIsLinearInData : Prop :=
  (∀ (xs ys : List Byte) (gen key : Word16), xs.length = ys.length →
    digest16 (List.zipWith (· ^^^ ·) xs ys) xs.length gen key =
      digest16 xs xs.length gen key ^^^ digest16 ys ys.length gen key) ∧
  (∀ (n : Nat) (gen key : Word16), digest16 (List.replicate n 0x00) n gen key = 0) ∧
  (∀ (bytes : List Byte) (n : Nat) (gen : Word16), digest16 bytes n gen 0 = 0) ∧
  (∀ (key : Word16) (j : Nat), keyStream 0 key j = key >>> j ∧ (16 ≤ j → keyStream 0 key j = 0)) ∧
  (∀ (bytes : List Byte) (gen key : Word16), digest16 bytes 0 gen key = 0)

/-- From R160 and R161 the digest is linear in the key as well, whatever the last bullet of R164 says (log
entry 13). -/
def Obligations.DigestIsLinearInKey : Prop :=
  ∀ (bytes : List Byte) (len : Nat) (gen k₁ k₂ : Word16),
    digest16 bytes len gen (k₁ ^^^ k₂) = digest16 bytes len gen k₁ ^^^ digest16 bytes len gen k₂

/-- R196, R197: the validator passes exactly when every bit of `chk ^ dig ^ 0x6DF1` is 0, and for any digest exactly
one checksum passes, `dig ^ 0x6DF1`. -/
def Obligations.ValidatorAcceptsOneChecksum : Prop :=
  ∀ dig : Word16,
    (∀ chk, validatorPasses chk dig = true ↔ chk ^^^ dig = 0x6DF1) ∧
    (∀ chk, validatorPasses chk dig = true ↔ ∀ k < 16, (chk ^^^ dig ^^^ 0x6DF1).getLsbD k = false) ∧
    (∀ chk, validatorPasses chk dig = true ↔ chk = dig ^^^ 0x6DF1)

/-- R200: the converters are exact weighted sums, nibbles above 9 included. -/
def Obligations.BcdIsWeightedSum : Prop :=
  (∀ a b : Nibble, bcd [a, b] = 10 * a.toNat + b.toNat) ∧
  (∀ a b c : Nibble, bcd [a, b, c] = 100 * a.toNat + 10 * b.toNat + c.toNat) ∧
  (∀ a b c d e f : Nibble, bcd [a, b, c, d, e, f] =
    100000 * a.toNat + 10000 * b.toNat + 1000 * c.toNat + 100 * d.toNat + 10 * e.toNat + f.toNat) ∧
  (∀ ds : List Nibble, bcd ds = ∑ i : Fin ds.length, ds[i].toNat * 10 ^ (ds.length - 1 - i.val))

/-- R216, R217: the temperature word over the whole range of three nibbles, and the ranges it takes. -/
def Obligations.TemperatureRuleAndRange : Prop :=
  (∀ a b c : Nibble, bcd [a, b, c] ≤ 1665 ∧
    (a.toNat ≤ 9 → b.toNat ≤ 9 → c.toNat ≤ 9 → bcd [a, b, c] ≤ 999)) ∧
  ∀ traw : Nat, traw ≤ 1665 →
    (traw ≤ 600 → (tempWord traw).toInt = traw) ∧
    (600 < traw → (tempWord traw).toInt = (traw : Int) - 1000) ∧
    (600 < traw → traw ≤ 999 → -399 ≤ (tempWord traw).toInt ∧ (tempWord traw).toInt ≤ -1) ∧
    (1000 ≤ traw → 0 ≤ (tempWord traw).toInt ∧ (tempWord traw).toInt ≤ 665)

/-- R197, R236: a frame built from any de-whitened bytes 2 to 25 by setting the checksum field decodes OK when its
raw byte 21 is not zero, and its record holds the very fields it was built from. -/
def Obligations.BuiltFrameRoundTrips : Prop :=
  ∀ (s : State) (w : Vector Byte 26), s.blk.payload = validFrame w → w[21] ≠ 0xAA →
    ∃ t, exec .decode s = .next t ∧ memRead 0x41 t.blk &&& 0x1F = 0x19 ∧
      (∀ i : Fin 26, 2 ≤ i.val → memRead (BitVec.ofNat 8 (0x20 + i)) t.blk = w[i]) ∧
      t.blk.record.id = w[2] ++ w[3] ∧
      t.blk.record.stype = (w[6] ^^^ 0xAA) >>> 4 ∧
      (chanOf t.blk.record.sinfo = w[6].extractLsb' 0 3 ∧ startupOf t.blk.record.sinfo = !w[6].getLsbD 3 ∧
        battOkOf t.blk.record.sinfo = !decide (w[15] &&& 0x06 = 0x06)) ∧
      t.blk.record.flags = w[15] &&& 0x0F ∧
      t.blk.record.wdir.toNat = 100 * (w[4].toNat / 16) + 10 * (w[4].toNat % 16) + w[5].toNat / 16 ∧
      t.blk.record.wgust.toNat = 100 * (w[7].toNat / 16) + 10 * (w[7].toNat % 16) + w[8].toNat / 16 ∧
      t.blk.record.wavg.toNat = 100 * (w[8].toNat % 16) + 10 * (w[9].toNat / 16) + w[9].toNat % 16 ∧
      t.blk.record.rain.toNat = 100000 * (w[10].toNat / 16) + 10000 * (w[10].toNat % 16) +
        1000 * (w[11].toNat / 16) + 100 * (w[11].toNat % 16) + 10 * (w[12].toNat / 16) + w[12].toNat % 16 ∧
      t.blk.record.traw.toNat = 100 * (w[14].toNat / 16) + 10 * (w[14].toNat % 16) + w[15].toNat / 16 ∧
      t.blk.record.hum.toNat = 10 * (w[16].toNat / 16) + w[16].toNat % 16 ∧
      t.blk.record.lux.toNat = 100000 * (w[17].toNat / 16) + 10000 * (w[17].toNat % 16) +
        1000 * (w[18].toNat / 16) + 100 * (w[18].toNat % 16) + 10 * (w[19].toNat / 16) + w[19].toNat % 16 ∧
      t.blk.record.uv.toNat = 100 * (w[20].toNat / 16) + 10 * (w[20].toNat % 16) + w[21].toNat / 16 ∧
      t.blk.record.temp.toInt =
        (if t.blk.record.traw.toNat > 600 then (t.blk.record.traw.toNat : Int) - 1000
          else t.blk.record.traw.toNat) ∧
      t.blk.record.fvalid = 0xFF

/-- A frame that decodes OK no longer does when any one bit of its bytes 0 to 24 is flipped (from R163, R164, R196). -/
def Obligations.SingleBitErrorIsDetected : Prop :=
  ∀ (s u : State) (i : Fin 26) (k : Fin 8), i.val ≤ 24 →
    u.blk.payload = s.blk.payload.set i (s.blk.payload[i] ^^^ ((1 : Byte) <<< k.val)) →
    ∃ t w, exec .decode s = .next t ∧ exec .decode u = .next w ∧ (t.blk.code = 1 → w.blk.code ≠ 1)

/-! ### Frames and whole-machine rules -/

/-- The frame of every command: from a state where it commits, BUSY and DONE change as R125 says; the inputs, ERR,
ERRCODE, PEND and the outside of the block do not change; and every address but STATUS and those the command's rule
writes reads as before. NOP, DIGEST and LSTEP leave CODE, VALID and COMPLETE. -/
def Obligations.CommandFrame : Prop :=
  ∀ (i : Instr) (s t : State), i.isCommand = true → exec i s = .next t →
    t.blk.busy = false ∧ t.blk.done = true ∧ t.blk.err = s.blk.err ∧ t.blk.errcode = s.blk.errcode ∧
    t.blk.pend = s.blk.pend ∧ SameInputs s.blk t.blk ∧ SameOutside s t ∧
    (∀ a, a ≠ 0x41 → ¬ resultAddr i a → memRead a t.blk = memRead a s.blk) ∧
    (i ≠ .decode → i ≠ .clear →
      t.blk.code = s.blk.code ∧ t.blk.valid = s.blk.valid ∧ t.blk.complete = s.blk.complete)

/-- R127: no command writes PAYLOAD, GEN, KEY, DOFF or DLEN; only host writes, and a reset, change them: a step that
changes one of them is a reset, or the host's, of a write transaction, while no command is pending. -/
def Obligations.OnlyHostWritesChangeInputs : Prop :=
  ∀ s t : State, step s = .next t → SameInputs s.blk t.blk ∨ mover s = .reset ∨
    (mover s = .host ∧ s.blk.busy = false ∧
      ∃ a v dest ps, s.prog = .xfer (busWord true a v) dest :: ps ∧ (within 0x00 0x19 a ∨ within 0x44 0x49 a))

/-- R123, R281: until the commit, no step changes the pending command, an input or a result. -/
def Obligations.PendingCommandIsFrozen : Prop :=
  ∀ s t : State, s.blk.busy = true → step s = .next t → t.blk.busy = true →
    SameInputs s.blk t.blk ∧ SameResults s.blk t.blk ∧ t.blk.pend = s.blk.pend ∧ t.blk.done = s.blk.done

/-- R40: only an OK DECODE and CLEAR write the record, and a reset. -/
def Obligations.RecordWrittenByOkDecodeOrClear : Prop :=
  ∀ s t : State, step s = .next t → t.blk.record = s.blk.record ∨ mover s = .reset ∨
    (mover s = .engine ∧ s.blk.busy = true ∧
      ((s.blk.pend = 0x10 ∧ t.blk.code = 1) ∨ (s.blk.pend = 0x40 ∧ t.blk.record = Record.zero)))

/-- R29: ERR is sticky: only the acceptance of a command, by the host, or a reset clears it. -/
def Obligations.ErrClearedByAcceptanceOnly : Prop :=
  ∀ s t : State, step s = .next t → s.blk.err = true → t.blk.err = false →
    mover s = .reset ∨ (mover s = .host ∧ s.blk.busy = false ∧ t.blk.busy = true ∧ t.blk.errcode = 0)

/-- R31, R125: BUSY rises only by the acceptance of a command, which the host's write of CMD is, and falls only by a
commit or a reset. -/
def Obligations.BusyRisesByIssueFallsByCommit : Prop :=
  ∀ s t : State, step s = .next t →
    (s.blk.busy = false → t.blk.busy = true → mover s = .host ∧
      ∃ v dest ps, s.prog = .xfer (busWord true 0x40 v) dest :: ps ∧ t.blk.pend = v ∧ t.blk.err = false ∧
        t.blk.errcode = 0 ∧ t.blk.done = false) ∧
    (s.blk.busy = true → t.blk.busy = false →
      mover s = .reset ∨
      (mover s = .engine ∧ t.blk.done = true ∧ t.blk.err = s.blk.err ∧ t.blk.errcode = s.blk.errcode))

/-! ### The step -/

/-- An engine's turn with a command pending runs the command PEND decodes to, and only moves the schedule on
(R124, R125). That a busy engine moves when the schedule names no turn is the model's choice (log entry 2). -/
def Obligations.EngineStepRunsPendingCommand : Prop :=
  ∀ (s : State) (i : Instr) (ts : List Turn),
    s.sched = .engine :: ts ∨ (s.sched = [] ∧ ts = []) → s.blk.busy = true → decodeCmd s.blk.pend = .instr i →
    step s = exec i { s with sched := ts }

/-- The host's turn runs the transaction its next word decodes to, moving its program and the schedule on; a named
read also binds the byte it returns (R99, R100). That the host moves when the schedule names no turn and no command is
pending is the model's choice (log entry 2), and so is that a binding is put before the older ones (log entry 10). -/
def Obligations.HostStepRunsNextWord : Prop :=
  ∀ (s : State) (w : BusWord) (dest : Option HostName) (ps : List HostOp) (ts : List Turn),
    s.sched = .host :: ts ∨ (s.sched = [] ∧ ts = [] ∧ s.blk.busy = false) →
    s.prog = .xfer w dest :: ps →
    (dest = none ∨ weField w = true → step s = exec (decodeBus w) { s with sched := ts, prog := ps }) ∧
    (∀ n, dest = some n → weField w = false → ∃ t,
      exec (decodeBus w) { s with sched := ts, prog := ps } = .next t ∧
      step s = .next { t with names := (n, t.rdata) :: t.names })

/-- `poll` repeats its read until `(byte & MASK) == VALUE` (R100), the first iteration that meets it included. -/
def Obligations.PollRepeatsUntilMatch : Prop :=
  ∀ (s : State) (a m v : Byte) (ps : List HostOp) (ts : List Turn),
    s.sched = .host :: ts → s.prog = .poll a m v :: ps →
    (memRead a s.blk &&& m = v →
      step s = .next { s with sched := ts, prog := ps, rdata := memRead a s.blk }) ∧
    (memRead a s.blk &&& m ≠ v →
      step s = .next { s with sched := ts, rdata := memRead a s.blk })

/-- R124: a commit is never enabled when BUSY = 0: an idle engine's turn changes only the schedule (log entry 4). -/
def Obligations.IdleEngineTurnChangesNothing : Prop :=
  ∀ (s : State) (ts : List Turn), s.sched = .engine :: ts → s.blk.busy = false →
    step s = .next { s with sched := ts }

/-- R270: a reset sets every register to its reset value, from any state, and discards a pending command. (PEND's
own value is the model's choice, log entry 1, and is not stated.) That the host's side stays is the model's choice
(log entry 5). -/
def Obligations.ResetEventSetsEveryRegister : Prop :=
  ∀ (s : State) (ts : List Turn), s.sched = .reset :: ts →
    ∃ t, step s = .next t ∧
      t.blk.payload = Vector.replicate 26 0x00 ∧
      memRead 0x41 t.blk = 0x00 ∧ t.blk.busy = false ∧ t.blk.errcode = 0x00 ∧
      t.blk.gen = 0x8810 ∧ t.blk.key = 0xBA95 ∧ t.blk.doff = 0x02 ∧ t.blk.dlen = 0x17 ∧ t.blk.lstate = 0xBA95 ∧
      t.blk.dsum = 0 ∧ t.blk.chk = 0 ∧ t.blk.record = Record.zero ∧
      t.rdata = s.rdata ∧ t.prog = s.prog ∧ t.names = s.names ∧ t.sched = ts

/-- R57, R273: the reset state, byte by byte of the address map; and the first DECODE answers INVALID. -/
def Obligations.ResetStateReadsAsStated : Prop :=
  (∀ a : Byte, memRead a State.reset.blk =
    if a.toNat < 0x20 then 0x00 else if a.toNat < 0x3A then 0xAA else
    if a = 0x44 then 0x88 else if a = 0x45 then 0x10 else if a = 0x46 then 0xBA else if a = 0x47 then 0x95 else
    if a = 0x48 then 0x02 else if a = 0x49 then 0x17 else if a = 0x4A then 0xBA else if a = 0x4B then 0x95 else
    0x00) ∧
  State.reset.blk.record = Record.zero ∧
  ∃ t, exec .decode State.reset = .next t ∧ memRead 0x41 t.blk = 0x40

/-! ### Invariants, progress, latency -/

/-- The reset state meets the invariant. -/
def Obligations.ResetMeetsInvariant : Prop := Inv State.reset

/-- Every step keeps the invariant: the status registers stay consistent, the record stays within its legal values,
and a pending command stays one that was accepted (R26 to R32, R42 to R54, R125). -/
def Obligations.StepKeepsInvariant : Prop :=
  ∀ s t : State, Inv s → step s = .next t → Inv t

/-- R240, R246: nothing stops the block: from every state that meets the invariant, whoever moves and whatever the
payload, a step answers a next state. -/
def Obligations.InvariantStateNeverStops : Prop :=
  ∀ s : State, Inv s → ∃ t, step s = .next t

/-- R290: whatever the schedule, a pending command commits, or is discarded by a reset, within as many steps as the
schedule has turns, and one; and until then BUSY stays 1. That bound is the model's choice: the schedule is finite, and
when it is exhausted a busy engine commits (log entry 2). -/
def Obligations.PendingCommandCommitsOrIsReset : Prop :=
  ∀ s : State, Inv s → s.blk.busy = true →
    ∃ k t, 1 ≤ k ∧ k ≤ s.sched.length + 1 ∧ Host.Core.run Sys2Proof.core k s = .next t ∧ t.blk.busy = false ∧
      ∀ j, j < k → ∃ u : State, Host.Core.run Sys2Proof.core j s = .next u ∧ u.blk.busy = true

/-- R126: the latency does not change a command's results: after any number of host turns, whatever the host does in
them, the commit leaves the inputs and results that an immediate commit leaves. Latency as a number of turns of the host is the
model's choice (log entry 3). -/
def Obligations.ResultsIndependentOfLatency : Prop :=
  ∀ (s : State) (n : Nat) (ts : List Turn), Inv s → s.blk.busy = true →
    s.sched = List.replicate n .host ++ .engine :: ts →
    ∃ t u : State, Host.Core.run Sys2Proof.core (n + 1) s = .next t ∧
      step { s with sched := [.engine] } = .next u ∧
      SameInputs u.blk t.blk ∧ SameResults u.blk t.blk ∧ t.blk.busy = u.blk.busy ∧ t.blk.done = u.blk.done

/-! ### Host syntax and consumer -/

/-- R101: the command spellings, LSTEP within 1 to 16 and rejected outside. -/
def Obligations.CommandSpellings : Prop :=
  mnemonicByte .NOP = some 0x00 ∧ mnemonicByte .DECODE = some 0x10 ∧ mnemonicByte .DIGEST_RAW = some 0x20 ∧
  mnemonicByte .DIGEST_DW = some 0x21 ∧ mnemonicByte .CLEAR = some 0x40 ∧
  (∀ n, 1 ≤ n → n ≤ 16 → mnemonicByte (.LSTEP n) = some (0x30 ||| BitVec.ofNat 8 (n - 1))) ∧
  (∀ n, n = 0 ∨ 16 < n → mnemonicByte (.LSTEP n) = none)

/-- The expansions of the pseudo-instructions (R102). A register whose last byte would lie above 0xFF is rejected, and
so is a command with no spelling: the model's reading (log entry 9; R101 for the spelling). -/
def Obligations.PseudoInstructionExpansions : Prop :=
  (∀ m v, mnemonicByte m = some v → expand (.cmd m) = some [.xfer (busWord true 0x40 v) none]) ∧
  (∀ m, mnemonicByte m = none → expand (.cmd m) = none) ∧
  expand .wait = some [.poll 0x41 0x80 0x00] ∧
  (∀ (a : Byte) (v : Word16), a.toNat < 0xFF → expand (.wr16 a v) =
    some [.xfer (busWord true a (v.extractLsb' 8 8)) none,
      .xfer (busWord true (a + 1) (v.extractLsb' 0 8)) none]) ∧
  (∀ v : Word16, expand (.wr16 0xFF v) = none) ∧
  (∀ (a : Byte) (n : String), a.toNat < 0xFF → expand (.rd16 a n) =
    some [.xfer (busWord false a 0) (some { base := n, part := .hi }),
      .xfer (busWord false (a + 1) 0) (some { base := n, part := .lo })]) ∧
  (∀ n : String, expand (.rd16 0xFF n) = none) ∧
  (∀ (a : Byte) (n : String), a.toNat < 0xFE → expand (.rd24 a n) =
    some [.xfer (busWord false a 0) (some { base := n, part := .b2 }),
      .xfer (busWord false (a + 1) 0) (some { base := n, part := .b1 }),
      .xfer (busWord false (a + 2) 0) (some { base := n, part := .b0 })]) ∧
  (∀ (a : Byte) (n : String), 0xFE ≤ a.toNat → expand (.rd24 a n) = none) ∧
  (∀ bytes : Vector Byte 26, expand (.load26 bytes) =
    some (List.ofFn fun i : Fin 26 => .xfer (busWord true (BitVec.ofNat 8 i) bytes[i]) none))

/-- R220: the physical values, as exact rationals. -/
def Obligations.PhysicalValuesAreExact : Prop :=
  ∀ r : Record,
    (physical r).tempC * 10 = r.temp.toInt ∧ (physical r).humPercent = r.hum.toNat ∧
    (physical r).gust * 10 = r.wgust.toNat ∧ (physical r).avg * 10 = r.wavg.toNat ∧
    (physical r).dirDeg = r.wdir.toNat ∧ (physical r).rainMm * 10 = r.rain.toNat ∧
    (physical r).lightLux = r.lux.toNat ∧ (physical r).lightKlx * 1000 = r.lux.toNat ∧
    (physical r).uvIndex * 10 = r.uv.toNat

/-! ### The digest's generator -/

/-- The digest is not linear in the generator (R164, the second half of its last bullet): for the single byte 0x40 and
some key, the digest under the XOR of two generators is not the XOR of the digests under each. -/
def Obligations.DigestIsNotLinearInGenerator : Prop :=
  ∃ key g₁ g₂ : Word16, digest16 [0x40] 1 (g₁ ^^^ g₂) key ≠ digest16 [0x40] 1 g₁ key ^^^ digest16 [0x40] 1 g₂ key

/-! ### Values of host names -/

/-- `rd ADDR -> NAME` (R100): the host's step of a named read binds the name to the byte of the map, and every other
name keeps its value. That an older binding of the name is hidden is the model's choice (log entry 10). -/
def Obligations.NamedReadBindsItsByte : Prop :=
  ∀ (s : State) (a : Byte) (n : HostName) (ps : List HostOp) (ts : List Turn),
    s.sched = .host :: ts → s.prog = .xfer (busWord false a 0x00) (some n) :: ps →
    ∃ t, step s = .next t ∧ boundByte n t = some (memRead a s.blk) ∧
      (∀ m, m ≠ n → boundByte m t = boundByte m s) ∧
      t.blk = s.blk ∧ t.prog = ps ∧ t.sched = ts

/-- `rd16 A -> N` gives `N = {N.hi, N.lo}` (R102): the high byte is the one read at the first of its host turns, the low
byte the one read at the second. Between the two the engine may commit, and then they may be from before and after
(R280); with nothing between, `N` is the two bytes of one state. That the host's program and the part already bound
survive a reset between the two is the model's choice (log entry 5), and so is that the newest binding of a name counts
(log entry 10). -/
def Obligations.Rd16FormsWord : Prop :=
  ∀ (s : State) (a : Byte) (n : String) (ops ps : List HostOp) (mid ts : List Turn),
    Inv s → expand (.rd16 a n) = some ops → s.prog = ops ++ ps →
    s.sched = .host :: mid ++ .host :: ts → (∀ m ∈ mid, m ≠ .host) →
    ∃ u t : State, Host.Core.run Sys2Proof.core (mid.length + 1) s = .next u ∧
      Host.Core.run Sys2Proof.core (mid.length + 2) s = .next t ∧
      boundWord16 n t = some (memRead a s.blk ++ memRead (a + 1) u.blk) ∧
      (mid = [] → u.blk = s.blk) ∧ t.blk = u.blk ∧ t.prog = ps ∧ t.sched = ts

/-- `rd24 A -> N` gives `N = {N.b2, N.b1, N.b0}` (R102), each byte as the block shows it at its own host turn, with
commits between them allowed (R280); with nothing between the three, `N` is the three bytes of one state. That the
host's program and the parts already bound survive a reset between them is the model's choice (log entry 5), and so is
that the newest binding of a name counts (log entry 10). -/
def Obligations.Rd24FormsWord : Prop :=
  ∀ (s : State) (a : Byte) (n : String) (ops ps : List HostOp) (mid₁ mid₂ ts : List Turn),
    Inv s → expand (.rd24 a n) = some ops → s.prog = ops ++ ps →
    s.sched = .host :: mid₁ ++ .host :: mid₂ ++ .host :: ts →
    (∀ m ∈ mid₁, m ≠ .host) → (∀ m ∈ mid₂, m ≠ .host) →
    ∃ u v t : State, Host.Core.run Sys2Proof.core (mid₁.length + 1) s = .next u ∧
      Host.Core.run Sys2Proof.core (mid₁.length + mid₂.length + 2) s = .next v ∧
      Host.Core.run Sys2Proof.core (mid₁.length + mid₂.length + 3) s = .next t ∧
      boundWord24 n t = some (memRead a s.blk ++ memRead (a + 1) u.blk ++ memRead (a + 2) v.blk) ∧
      (mid₁ = [] → u.blk = s.blk) ∧ (mid₂ = [] → v.blk = u.blk) ∧ t.blk = v.blk ∧ t.prog = ps ∧ t.sched = ts
end

