-- ==== Sys2Proof/Laws/State.lean ====
section
/-! SUPPORT. One lemma per field of every named update of the block and the state, true by rfl. -/

namespace Sys2Proof.Machine

@[simp] theorem State.withBlk_rdata (s : State) (b : Block) : (s.withBlk b).rdata = s.rdata := rfl
@[simp] theorem State.withBlk_prog (s : State) (b : Block) : (s.withBlk b).prog = s.prog := rfl
@[simp] theorem State.withBlk_names (s : State) (b : Block) : (s.withBlk b).names = s.names := rfl
@[simp] theorem State.withBlk_sched (s : State) (b : Block) : (s.withBlk b).sched = s.sched := rfl
@[simp] theorem State.withBlk_blk (s : State) (b : Block) : (s.withBlk b).blk = b := rfl
@[simp] theorem State.withBlk_self (s : State) : s.withBlk s.blk = s := rfl
@[simp] theorem State.withBlk_withBlk (s : State) (b c : Block) : (s.withBlk b).withBlk c = s.withBlk c := rfl

/-! `finish` -/

@[simp] theorem finish_payload (b : Block) :
    (finish b).payload = b.payload := rfl
@[simp] theorem finish_busy (b : Block) :
    (finish b).busy = false := rfl
@[simp] theorem finish_done (b : Block) :
    (finish b).done = true := rfl
@[simp] theorem finish_err (b : Block) :
    (finish b).err = b.err := rfl
@[simp] theorem finish_complete (b : Block) :
    (finish b).complete = b.complete := rfl
@[simp] theorem finish_valid (b : Block) :
    (finish b).valid = b.valid := rfl
@[simp] theorem finish_code (b : Block) :
    (finish b).code = b.code := rfl
@[simp] theorem finish_errcode (b : Block) :
    (finish b).errcode = b.errcode := rfl
@[simp] theorem finish_gen (b : Block) :
    (finish b).gen = b.gen := rfl
@[simp] theorem finish_key (b : Block) :
    (finish b).key = b.key := rfl
@[simp] theorem finish_doff (b : Block) :
    (finish b).doff = b.doff := rfl
@[simp] theorem finish_dlen (b : Block) :
    (finish b).dlen = b.dlen := rfl
@[simp] theorem finish_lstate (b : Block) :
    (finish b).lstate = b.lstate := rfl
@[simp] theorem finish_dsum (b : Block) :
    (finish b).dsum = b.dsum := rfl
@[simp] theorem finish_chk (b : Block) :
    (finish b).chk = b.chk := rfl
@[simp] theorem finish_record (b : Block) :
    (finish b).record = b.record := rfl
@[simp] theorem finish_pend (b : Block) :
    (finish b).pend = b.pend := rfl

/-! `accept` -/

@[simp] theorem accept_payload (v : Byte) (b : Block) :
    (accept v b).payload = b.payload := rfl
@[simp] theorem accept_busy (v : Byte) (b : Block) :
    (accept v b).busy = true := rfl
@[simp] theorem accept_done (v : Byte) (b : Block) :
    (accept v b).done = false := rfl
@[simp] theorem accept_err (v : Byte) (b : Block) :
    (accept v b).err = false := rfl
@[simp] theorem accept_complete (v : Byte) (b : Block) :
    (accept v b).complete = b.complete := rfl
@[simp] theorem accept_valid (v : Byte) (b : Block) :
    (accept v b).valid = b.valid := rfl
@[simp] theorem accept_code (v : Byte) (b : Block) :
    (accept v b).code = b.code := rfl
@[simp] theorem accept_errcode (v : Byte) (b : Block) :
    (accept v b).errcode = 0x00 := rfl
@[simp] theorem accept_gen (v : Byte) (b : Block) :
    (accept v b).gen = b.gen := rfl
@[simp] theorem accept_key (v : Byte) (b : Block) :
    (accept v b).key = b.key := rfl
@[simp] theorem accept_doff (v : Byte) (b : Block) :
    (accept v b).doff = b.doff := rfl
@[simp] theorem accept_dlen (v : Byte) (b : Block) :
    (accept v b).dlen = b.dlen := rfl
@[simp] theorem accept_lstate (v : Byte) (b : Block) :
    (accept v b).lstate = b.lstate := rfl
@[simp] theorem accept_dsum (v : Byte) (b : Block) :
    (accept v b).dsum = b.dsum := rfl
@[simp] theorem accept_chk (v : Byte) (b : Block) :
    (accept v b).chk = b.chk := rfl
@[simp] theorem accept_record (v : Byte) (b : Block) :
    (accept v b).record = b.record := rfl
@[simp] theorem accept_pend (v : Byte) (b : Block) :
    (accept v b).pend = v := rfl

/-! `cmdError` -/

@[simp] theorem cmdError_payload (c : ErrCause) (b : Block) :
    (cmdError c b).payload = b.payload := rfl
@[simp] theorem cmdError_busy (c : ErrCause) (b : Block) :
    (cmdError c b).busy = b.busy := rfl
@[simp] theorem cmdError_done (c : ErrCause) (b : Block) :
    (cmdError c b).done = true := rfl
@[simp] theorem cmdError_err (c : ErrCause) (b : Block) :
    (cmdError c b).err = true := rfl
@[simp] theorem cmdError_complete (c : ErrCause) (b : Block) :
    (cmdError c b).complete = b.complete := rfl
@[simp] theorem cmdError_valid (c : ErrCause) (b : Block) :
    (cmdError c b).valid = b.valid := rfl
@[simp] theorem cmdError_code (c : ErrCause) (b : Block) :
    (cmdError c b).code = b.code := rfl
@[simp] theorem cmdError_errcode (c : ErrCause) (b : Block) :
    (cmdError c b).errcode = errCode c := rfl
@[simp] theorem cmdError_gen (c : ErrCause) (b : Block) :
    (cmdError c b).gen = b.gen := rfl
@[simp] theorem cmdError_key (c : ErrCause) (b : Block) :
    (cmdError c b).key = b.key := rfl
@[simp] theorem cmdError_doff (c : ErrCause) (b : Block) :
    (cmdError c b).doff = b.doff := rfl
@[simp] theorem cmdError_dlen (c : ErrCause) (b : Block) :
    (cmdError c b).dlen = b.dlen := rfl
@[simp] theorem cmdError_lstate (c : ErrCause) (b : Block) :
    (cmdError c b).lstate = b.lstate := rfl
@[simp] theorem cmdError_dsum (c : ErrCause) (b : Block) :
    (cmdError c b).dsum = b.dsum := rfl
@[simp] theorem cmdError_chk (c : ErrCause) (b : Block) :
    (cmdError c b).chk = b.chk := rfl
@[simp] theorem cmdError_record (c : ErrCause) (b : Block) :
    (cmdError c b).record = b.record := rfl
@[simp] theorem cmdError_pend (c : ErrCause) (b : Block) :
    (cmdError c b).pend = b.pend := rfl

/-! `dropBusyWrite` -/

@[simp] theorem dropBusyWrite_payload (b : Block) :
    (dropBusyWrite b).payload = b.payload := rfl
@[simp] theorem dropBusyWrite_busy (b : Block) :
    (dropBusyWrite b).busy = b.busy := rfl
@[simp] theorem dropBusyWrite_done (b : Block) :
    (dropBusyWrite b).done = b.done := rfl
@[simp] theorem dropBusyWrite_err (b : Block) :
    (dropBusyWrite b).err = true := rfl
@[simp] theorem dropBusyWrite_complete (b : Block) :
    (dropBusyWrite b).complete = b.complete := rfl
@[simp] theorem dropBusyWrite_valid (b : Block) :
    (dropBusyWrite b).valid = b.valid := rfl
@[simp] theorem dropBusyWrite_code (b : Block) :
    (dropBusyWrite b).code = b.code := rfl
@[simp] theorem dropBusyWrite_errcode (b : Block) :
    (dropBusyWrite b).errcode = 4 := rfl
@[simp] theorem dropBusyWrite_gen (b : Block) :
    (dropBusyWrite b).gen = b.gen := rfl
@[simp] theorem dropBusyWrite_key (b : Block) :
    (dropBusyWrite b).key = b.key := rfl
@[simp] theorem dropBusyWrite_doff (b : Block) :
    (dropBusyWrite b).doff = b.doff := rfl
@[simp] theorem dropBusyWrite_dlen (b : Block) :
    (dropBusyWrite b).dlen = b.dlen := rfl
@[simp] theorem dropBusyWrite_lstate (b : Block) :
    (dropBusyWrite b).lstate = b.lstate := rfl
@[simp] theorem dropBusyWrite_dsum (b : Block) :
    (dropBusyWrite b).dsum = b.dsum := rfl
@[simp] theorem dropBusyWrite_chk (b : Block) :
    (dropBusyWrite b).chk = b.chk := rfl
@[simp] theorem dropBusyWrite_record (b : Block) :
    (dropBusyWrite b).record = b.record := rfl
@[simp] theorem dropBusyWrite_pend (b : Block) :
    (dropBusyWrite b).pend = b.pend := rfl

/-! `setOutcome` -/

@[simp] theorem setOutcome_payload (st : DecodeStatus) (ok : Bool) (b : Block) :
    (setOutcome st ok b).payload = b.payload := rfl
@[simp] theorem setOutcome_busy (st : DecodeStatus) (ok : Bool) (b : Block) :
    (setOutcome st ok b).busy = b.busy := rfl
@[simp] theorem setOutcome_done (st : DecodeStatus) (ok : Bool) (b : Block) :
    (setOutcome st ok b).done = b.done := rfl
@[simp] theorem setOutcome_err (st : DecodeStatus) (ok : Bool) (b : Block) :
    (setOutcome st ok b).err = b.err := rfl
@[simp] theorem setOutcome_complete (st : DecodeStatus) (ok : Bool) (b : Block) :
    (setOutcome st ok b).complete = ok := rfl
@[simp] theorem setOutcome_valid (st : DecodeStatus) (ok : Bool) (b : Block) :
    (setOutcome st ok b).valid = ok := rfl
@[simp] theorem setOutcome_code (st : DecodeStatus) (ok : Bool) (b : Block) :
    (setOutcome st ok b).code = st.code := rfl
@[simp] theorem setOutcome_errcode (st : DecodeStatus) (ok : Bool) (b : Block) :
    (setOutcome st ok b).errcode = b.errcode := rfl
@[simp] theorem setOutcome_gen (st : DecodeStatus) (ok : Bool) (b : Block) :
    (setOutcome st ok b).gen = b.gen := rfl
@[simp] theorem setOutcome_key (st : DecodeStatus) (ok : Bool) (b : Block) :
    (setOutcome st ok b).key = b.key := rfl
@[simp] theorem setOutcome_doff (st : DecodeStatus) (ok : Bool) (b : Block) :
    (setOutcome st ok b).doff = b.doff := rfl
@[simp] theorem setOutcome_dlen (st : DecodeStatus) (ok : Bool) (b : Block) :
    (setOutcome st ok b).dlen = b.dlen := rfl
@[simp] theorem setOutcome_lstate (st : DecodeStatus) (ok : Bool) (b : Block) :
    (setOutcome st ok b).lstate = b.lstate := rfl
@[simp] theorem setOutcome_dsum (st : DecodeStatus) (ok : Bool) (b : Block) :
    (setOutcome st ok b).dsum = b.dsum := rfl
@[simp] theorem setOutcome_chk (st : DecodeStatus) (ok : Bool) (b : Block) :
    (setOutcome st ok b).chk = b.chk := rfl
@[simp] theorem setOutcome_record (st : DecodeStatus) (ok : Bool) (b : Block) :
    (setOutcome st ok b).record = b.record := rfl
@[simp] theorem setOutcome_pend (st : DecodeStatus) (ok : Bool) (b : Block) :
    (setOutcome st ok b).pend = b.pend := rfl

/-! `setDigest` -/

@[simp] theorem setDigest_payload (b : Block) :
    (setDigest b).payload = b.payload := rfl
@[simp] theorem setDigest_busy (b : Block) :
    (setDigest b).busy = b.busy := rfl
@[simp] theorem setDigest_done (b : Block) :
    (setDigest b).done = b.done := rfl
@[simp] theorem setDigest_err (b : Block) :
    (setDigest b).err = b.err := rfl
@[simp] theorem setDigest_complete (b : Block) :
    (setDigest b).complete = b.complete := rfl
@[simp] theorem setDigest_valid (b : Block) :
    (setDigest b).valid = b.valid := rfl
@[simp] theorem setDigest_code (b : Block) :
    (setDigest b).code = b.code := rfl
@[simp] theorem setDigest_errcode (b : Block) :
    (setDigest b).errcode = b.errcode := rfl
@[simp] theorem setDigest_gen (b : Block) :
    (setDigest b).gen = b.gen := rfl
@[simp] theorem setDigest_key (b : Block) :
    (setDigest b).key = b.key := rfl
@[simp] theorem setDigest_doff (b : Block) :
    (setDigest b).doff = b.doff := rfl
@[simp] theorem setDigest_dlen (b : Block) :
    (setDigest b).dlen = b.dlen := rfl
@[simp] theorem setDigest_lstate (b : Block) :
    (setDigest b).lstate = b.lstate := rfl
@[simp] theorem setDigest_dsum (b : Block) :
    (setDigest b).dsum = frameDigest b.payload := rfl
@[simp] theorem setDigest_chk (b : Block) :
    (setDigest b).chk = checksumField b.payload := rfl
@[simp] theorem setDigest_record (b : Block) :
    (setDigest b).record = b.record := rfl
@[simp] theorem setDigest_pend (b : Block) :
    (setDigest b).pend = b.pend := rfl

/-! `setRecord` -/

@[simp] theorem setRecord_payload (b : Block) :
    (setRecord b).payload = b.payload := rfl
@[simp] theorem setRecord_busy (b : Block) :
    (setRecord b).busy = b.busy := rfl
@[simp] theorem setRecord_done (b : Block) :
    (setRecord b).done = b.done := rfl
@[simp] theorem setRecord_err (b : Block) :
    (setRecord b).err = b.err := rfl
@[simp] theorem setRecord_complete (b : Block) :
    (setRecord b).complete = b.complete := rfl
@[simp] theorem setRecord_valid (b : Block) :
    (setRecord b).valid = b.valid := rfl
@[simp] theorem setRecord_code (b : Block) :
    (setRecord b).code = b.code := rfl
@[simp] theorem setRecord_errcode (b : Block) :
    (setRecord b).errcode = b.errcode := rfl
@[simp] theorem setRecord_gen (b : Block) :
    (setRecord b).gen = b.gen := rfl
@[simp] theorem setRecord_key (b : Block) :
    (setRecord b).key = b.key := rfl
@[simp] theorem setRecord_doff (b : Block) :
    (setRecord b).doff = b.doff := rfl
@[simp] theorem setRecord_dlen (b : Block) :
    (setRecord b).dlen = b.dlen := rfl
@[simp] theorem setRecord_lstate (b : Block) :
    (setRecord b).lstate = b.lstate := rfl
@[simp] theorem setRecord_dsum (b : Block) :
    (setRecord b).dsum = b.dsum := rfl
@[simp] theorem setRecord_chk (b : Block) :
    (setRecord b).chk = b.chk := rfl
@[simp] theorem setRecord_record (b : Block) :
    (setRecord b).record = recordOf b.payload := rfl
@[simp] theorem setRecord_pend (b : Block) :
    (setRecord b).pend = b.pend := rfl

/-! `clearBlock` -/

@[simp] theorem clearBlock_payload (b : Block) :
    (clearBlock b).payload = b.payload := rfl
@[simp] theorem clearBlock_busy (b : Block) :
    (clearBlock b).busy = b.busy := rfl
@[simp] theorem clearBlock_done (b : Block) :
    (clearBlock b).done = b.done := rfl
@[simp] theorem clearBlock_err (b : Block) :
    (clearBlock b).err = b.err := rfl
@[simp] theorem clearBlock_complete (b : Block) :
    (clearBlock b).complete = false := rfl
@[simp] theorem clearBlock_valid (b : Block) :
    (clearBlock b).valid = false := rfl
@[simp] theorem clearBlock_code (b : Block) :
    (clearBlock b).code = 0 := rfl
@[simp] theorem clearBlock_errcode (b : Block) :
    (clearBlock b).errcode = b.errcode := rfl
@[simp] theorem clearBlock_gen (b : Block) :
    (clearBlock b).gen = b.gen := rfl
@[simp] theorem clearBlock_key (b : Block) :
    (clearBlock b).key = b.key := rfl
@[simp] theorem clearBlock_doff (b : Block) :
    (clearBlock b).doff = b.doff := rfl
@[simp] theorem clearBlock_dlen (b : Block) :
    (clearBlock b).dlen = b.dlen := rfl
@[simp] theorem clearBlock_lstate (b : Block) :
    (clearBlock b).lstate = b.lstate := rfl
@[simp] theorem clearBlock_dsum (b : Block) :
    (clearBlock b).dsum = 0 := rfl
@[simp] theorem clearBlock_chk (b : Block) :
    (clearBlock b).chk = 0 := rfl
@[simp] theorem clearBlock_record (b : Block) :
    (clearBlock b).record = Record.zero := rfl
@[simp] theorem clearBlock_pend (b : Block) :
    (clearBlock b).pend = b.pend := rfl

/-! `digestBlock` -/

@[simp] theorem digestBlock_payload (v : View) (b : Block) :
    (digestBlock v b).payload = b.payload := rfl
@[simp] theorem digestBlock_busy (v : View) (b : Block) :
    (digestBlock v b).busy = b.busy := rfl
@[simp] theorem digestBlock_done (v : View) (b : Block) :
    (digestBlock v b).done = b.done := rfl
@[simp] theorem digestBlock_err (v : View) (b : Block) :
    (digestBlock v b).err = b.err := rfl
@[simp] theorem digestBlock_complete (v : View) (b : Block) :
    (digestBlock v b).complete = b.complete := rfl
@[simp] theorem digestBlock_valid (v : View) (b : Block) :
    (digestBlock v b).valid = b.valid := rfl
@[simp] theorem digestBlock_code (v : View) (b : Block) :
    (digestBlock v b).code = b.code := rfl
@[simp] theorem digestBlock_errcode (v : View) (b : Block) :
    (digestBlock v b).errcode = b.errcode := rfl
@[simp] theorem digestBlock_gen (v : View) (b : Block) :
    (digestBlock v b).gen = b.gen := rfl
@[simp] theorem digestBlock_key (v : View) (b : Block) :
    (digestBlock v b).key = b.key := rfl
@[simp] theorem digestBlock_doff (v : View) (b : Block) :
    (digestBlock v b).doff = b.doff := rfl
@[simp] theorem digestBlock_dlen (v : View) (b : Block) :
    (digestBlock v b).dlen = b.dlen := rfl
@[simp] theorem digestBlock_lstate (v : View) (b : Block) :
    (digestBlock v b).lstate = b.lstate := rfl
@[simp] theorem digestBlock_dsum (v : View) (b : Block) :
    (digestBlock v b).dsum = digest16 (viewRange v b.doff.toNat b.dlen.toNat b.payload) b.dlen.toNat b.gen b.key := rfl
@[simp] theorem digestBlock_chk (v : View) (b : Block) :
    (digestBlock v b).chk = b.chk := rfl
@[simp] theorem digestBlock_record (v : View) (b : Block) :
    (digestBlock v b).record = b.record := rfl
@[simp] theorem digestBlock_pend (v : View) (b : Block) :
    (digestBlock v b).pend = b.pend := rfl

/-! `lstepBlock` -/

@[simp] theorem lstepBlock_payload (n : Nat) (b : Block) :
    (lstepBlock n b).payload = b.payload := rfl
@[simp] theorem lstepBlock_busy (n : Nat) (b : Block) :
    (lstepBlock n b).busy = b.busy := rfl
@[simp] theorem lstepBlock_done (n : Nat) (b : Block) :
    (lstepBlock n b).done = b.done := rfl
@[simp] theorem lstepBlock_err (n : Nat) (b : Block) :
    (lstepBlock n b).err = b.err := rfl
@[simp] theorem lstepBlock_complete (n : Nat) (b : Block) :
    (lstepBlock n b).complete = b.complete := rfl
@[simp] theorem lstepBlock_valid (n : Nat) (b : Block) :
    (lstepBlock n b).valid = b.valid := rfl
@[simp] theorem lstepBlock_code (n : Nat) (b : Block) :
    (lstepBlock n b).code = b.code := rfl
@[simp] theorem lstepBlock_errcode (n : Nat) (b : Block) :
    (lstepBlock n b).errcode = b.errcode := rfl
@[simp] theorem lstepBlock_gen (n : Nat) (b : Block) :
    (lstepBlock n b).gen = b.gen := rfl
@[simp] theorem lstepBlock_key (n : Nat) (b : Block) :
    (lstepBlock n b).key = b.key := rfl
@[simp] theorem lstepBlock_doff (n : Nat) (b : Block) :
    (lstepBlock n b).doff = b.doff := rfl
@[simp] theorem lstepBlock_dlen (n : Nat) (b : Block) :
    (lstepBlock n b).dlen = b.dlen := rfl
@[simp] theorem lstepBlock_lstate (n : Nat) (b : Block) :
    (lstepBlock n b).lstate = lfsrSteps b.gen n b.lstate := rfl
@[simp] theorem lstepBlock_dsum (n : Nat) (b : Block) :
    (lstepBlock n b).dsum = b.dsum := rfl
@[simp] theorem lstepBlock_chk (n : Nat) (b : Block) :
    (lstepBlock n b).chk = b.chk := rfl
@[simp] theorem lstepBlock_record (n : Nat) (b : Block) :
    (lstepBlock n b).record = b.record := rfl
@[simp] theorem lstepBlock_pend (n : Nat) (b : Block) :
    (lstepBlock n b).pend = b.pend := rfl

end Sys2Proof.Machine
end

