-- ==== Sys2Proof/Laws/Ops.lean ====
section
/-! SUPPORT. The address map, `MemRead`, `MemWrite` and `IssueCommand`: what each can do, said once. -/

namespace Sys2Proof.Machine

open Sys2Proof.Safety

/-- The writable addresses, as R66 lists them. -/
theorem writable_iff (a : Byte) : writable a = true ↔ within 0x00 0x19 a ∨ within 0x44 0x4B a := by
  simp only [writable, within]
  simp
  omega

/-- The address of a name: the map of R61 read the other way; 0 for `reserved`, which has many. -/
def portAddr : Port → Byte
  | .payload i => BitVec.ofNat 8 i
  | .dw i => BitVec.ofNat 8 (0x20 + i)
  | .cmd => 0x40
  | .status => 0x41
  | .errcode => 0x42
  | .gen .hi => 0x44
  | .gen .lo => 0x45
  | .key .hi => 0x46
  | .key .lo => 0x47
  | .doff => 0x48
  | .dlen => 0x49
  | .lstate .hi => 0x4A
  | .lstate .lo => 0x4B
  | .dsum .hi => 0x4C
  | .dsum .lo => 0x4D
  | .chk .hi => 0x4E
  | .chk .lo => 0x4F
  | .id .hi => 0x50
  | .id .lo => 0x51
  | .stype => 0x52
  | .sinfo => 0x53
  | .flags => 0x54
  | .fvalid => 0x55
  | .wdir .hi => 0x56
  | .wdir .lo => 0x57
  | .wgust .hi => 0x58
  | .wgust .lo => 0x59
  | .wavg .hi => 0x5A
  | .wavg .lo => 0x5B
  | .rain .b2 => 0x5C
  | .rain .b1 => 0x5D
  | .rain .b0 => 0x5E
  | .hum => 0x5F
  | .temp .hi => 0x60
  | .temp .lo => 0x61
  | .lux .b2 => 0x62
  | .lux .b1 => 0x63
  | .lux .b0 => 0x64
  | .uv .hi => 0x65
  | .uv .lo => 0x66
  | .traw .hi => 0x67
  | .traw .lo => 0x68
  | .reserved => 0x00

theorem portAddr_portOf : ∀ a : Byte, portOf a = .reserved ∨ portAddr (portOf a) = a := by
  decide

/-- Two addresses of the map with one name are one address, unless the name is `reserved`. -/
theorem portOf_injective (a b : Byte) (h : portOf a = portOf b) : portOf a = .reserved ∨ a = b := by
  obtain ha | ha := portAddr_portOf a
  · exact .inl ha
  · obtain hb | hb := portAddr_portOf b
    · exact .inl (h.trans hb)
    · exact .inr (ha.symm.trans (by rw [h, hb]))

/-- A payload address is named by its offset. -/
theorem portOf_payload (a : Byte) (h : a.toNat < 26) : portOf a = .payload ⟨a.toNat, h⟩ := by
  simp [portOf, h]

theorem portOf_payload_addr : ∀ i : Fin 26, portOf (BitVec.ofNat 8 i) = .payload i := by decide

theorem portOf_dw_addr : ∀ i : Fin 26, portOf (BitVec.ofNat 8 (0x20 + i)) = .dw i := by decide

/-- The reserved addresses are the ranges of R62. -/
theorem portOf_reserved_iff : ∀ a : Byte, portOf a = .reserved ↔
    within 0x1A 0x1F a ∨ within 0x3A 0x3F a ∨ a = 0x43 ∨ within 0x69 0xFF a := by
  simp only [within]
  decide

/-- A read of the window is a read of the payload, de-whitened. -/
theorem memRead_dw (b : Block) (i : Fin 26) :
    memRead (BitVec.ofNat 8 (0x20 + i)) b = b.payload[i] ^^^ 0xAA := by
  simp [memRead, portOf_dw_addr, readPort, dw]

theorem memRead_payload (b : Block) (i : Fin 26) : memRead (BitVec.ofNat 8 i) b = b.payload[i] := by
  simp [memRead, portOf_payload_addr, readPort]

theorem memRead_reserved (b : Block) (a : Byte)
    (h : within 0x1A 0x1F a ∨ within 0x3A 0x3F a ∨ a = 0x43 ∨ within 0x69 0xFF a) : memRead a b = 0x00 := by
  simp [memRead, (portOf_reserved_iff a).2 h, readPort]

/-- A write to no writable address and not to CMD does nothing (R67). -/
theorem memWrite_ignored (a v : Byte) (b : Block) (h : a ≠ 0x40) (hw : writable a = false) :
    memWrite a v b = b := by
  unfold memWrite
  rw [if_neg h, if_neg (by simp [hw])]

/-- A busy block drops every write it does not ignore (R242). -/
theorem memWrite_busy (a v : Byte) (b : Block) (hb : b.busy = true) :
    memWrite a v b = if a = 0x40 ∨ writable a = true then dropBusyWrite b else b := by
  unfold memWrite
  by_cases h : a = Config.cmdAddr
  · rw [if_pos h, if_pos (Or.inl h), issueCommand, if_pos hb]
  · rw [if_neg h]
    by_cases hw : writable a = true
    · rw [if_pos hw, if_pos hb, if_pos (Or.inr hw)]
    · rw [if_neg hw, if_neg (not_or.2 ⟨h, hw⟩)]

/-- An idle block stores a byte written to a writable address (R66). -/
theorem memWrite_idle (a v : Byte) (b : Block) (hb : b.busy = false) (h : a ≠ 0x40) (hw : writable a = true) :
    memWrite a v b = storePort v b (portOf a) := by
  unfold memWrite
  rw [if_neg h, if_pos hw, if_neg (by simp [hb])]

theorem memWrite_cmd (v : Byte) (b : Block) : memWrite 0x40 v b = issueCommand v b := by
  simp [memWrite]

/-- Everything `IssueCommand` can do (R122). -/
theorem issueCommand_cases (v : Byte) (b : Block) :
    (b.busy = true ∧ issueCommand v b = dropBusyWrite b) ∨
    (b.busy = false ∧ ∃ c, issueCommand v b = cmdError c b ∧ c ≠ .busyWrite) ∨
    (b.busy = false ∧ (∃ i, decodeCmd v = .instr i ∧ acceptable i b = true) ∧ issueCommand v b = accept v b) := by
  unfold issueCommand
  by_cases hb : b.busy = true
  · simp [hb]
  · rw [Bool.not_eq_true] at hb
    cases hd : decodeCmd v with
    | reject c =>
      refine .inr (.inl ⟨hb, c, by simp [hb], ?_⟩)
      rintro rfl
      revert hd v
      decide
    | instr i =>
      by_cases ha : acceptable i b = true
      · exact .inr (.inr ⟨hb, ⟨i, rfl, ha⟩, by simp [hb, ha]⟩)
      · exact .inr (.inl ⟨hb, .range, by simp [hb, ha], by simp⟩)

/-- Everything a store can do: one input register, and nothing else. -/
theorem storePort_frame (v : Byte) (b : Block) (p : Port) :
    (storePort v b p).busy = b.busy ∧ (storePort v b p).done = b.done ∧ (storePort v b p).err = b.err ∧
    (storePort v b p).complete = b.complete ∧ (storePort v b p).valid = b.valid ∧
    (storePort v b p).code = b.code ∧ (storePort v b p).errcode = b.errcode ∧
    (storePort v b p).dsum = b.dsum ∧ (storePort v b p).chk = b.chk ∧
    (storePort v b p).record = b.record ∧ (storePort v b p).pend = b.pend := by
  cases p <;> simp [storePort]

/-- Everything `MemWrite` can do. -/
theorem memWrite_cases (a v : Byte) (b : Block) :
    memWrite a v b = b ∨
    (b.busy = true ∧ memWrite a v b = dropBusyWrite b) ∨
    (b.busy = false ∧ a = 0x40 ∧ ∃ c, memWrite a v b = cmdError c b ∧ c ≠ .busyWrite) ∨
    (b.busy = false ∧ a = 0x40 ∧ (∃ i, decodeCmd v = .instr i ∧ acceptable i b = true) ∧
      memWrite a v b = accept v b) ∨
    (b.busy = false ∧ a ≠ 0x40 ∧ writable a = true ∧ memWrite a v b = storePort v b (portOf a)) := by
  by_cases h : a = 0x40
  · subst h
    rw [memWrite_cmd]
    obtain ⟨hb, he⟩ | ⟨hb, c, he, hc⟩ | ⟨hb, hi, he⟩ := issueCommand_cases v b
    · exact .inr (.inl ⟨hb, he⟩)
    · exact .inr (.inr (.inl ⟨hb, rfl, c, he, hc⟩))
    · exact .inr (.inr (.inr (.inl ⟨hb, rfl, hi, he⟩)))
  · by_cases hw : writable a = true
    · by_cases hb : b.busy = true
      · exact .inr (.inl ⟨hb, by simp [memWrite_busy a v b hb, hw]⟩)
      · rw [Bool.not_eq_true] at hb
        exact .inr (.inr (.inr (.inr ⟨hb, h, hw, memWrite_idle a v b hb h hw⟩)))
    · exact .inl (memWrite_ignored a v b h (by simpa using hw))

end Sys2Proof.Machine
end

