-- ==== Sys2Proof/Laws/Bytes.lean ====
section
/-! SUPPORT. Bytes of registers (spec/20_memory.md R63, R66), and what a store leaves of every other address. -/

namespace Sys2Proof.Machine

open Sys2Proof.Safety

/-- A 16-bit register is its high byte, then its low byte (R63). -/
theorem half_append (w : Word16) : half .hi w ++ half .lo w = w := by
  apply BitVec.eq_of_getLsbD_eq
  intro i hi
  simp only [BitVec.getLsbD_append, half, BitVec.getLsbD_extractLsb']
  by_cases h : i < 8
  · simp [h]
  · have h1 : i - 8 < 8 := by omega
    have h2 : 8 + (i - 8) = i := by omega
    simp [h, h1, h2]

/-- A 24-bit register is its three bytes, the most significant first (R63). -/
theorem third_append (w : Word24) : third .b2 w ++ third .b1 w ++ third .b0 w = w := by
  apply BitVec.eq_of_getLsbD_eq
  intro i hi
  simp only [BitVec.getLsbD_append, third, BitVec.getLsbD_extractLsb']
  by_cases h : i < 8
  · simp [h]
  · by_cases h1 : i - 8 < 8
    · have h2 : 8 + (i - 8) = i := by omega
      simp [h, h1, h2]
    · have h2 : 16 + (i - 8 - 8) = i := by omega
      have h3 : i - 8 - 8 < 8 := by omega
      simp [h, h1, h2, h3]

/-- The bytes of two bytes put together. -/
theorem half_of_append (h : Half) (a b : Byte) : half h (a ++ b : BitVec (8 + 8)) = if h = .hi then a else b := by
  apply BitVec.eq_of_getLsbD_eq
  intro i hi
  cases h <;> simp only [half, BitVec.getLsbD_extractLsb'] <;> rw [BitVec.getLsbD_append] <;> simp [hi]

/-- Writing one byte of a 16-bit register leaves its other byte unchanged (R66). -/
theorem half_setHalf (h k : Half) (w : Word16) (v : Byte) :
    half k (setHalf h w v) = if k = h then v else half k w := by
  cases h <;> cases k <;> exact half_of_append _ _ _

/-- A store shows at its own address, in the window for a payload byte, and nowhere else. -/
theorem readPort_storePort (v : Byte) (b : Block) (p q : Port) (hq : q ≠ p)
    (hd : ∀ i, p = .payload i → q ≠ .dw i) : readPort (storePort v b p) q = readPort b q := by
  have half_ne : ∀ {h k : Half} (w : Word16), k ≠ h → half k (setHalf h w v) = half k w :=
    fun w hk => by rw [half_setHalf, if_neg hk]
  cases p with
  | payload i =>
    have set_ne : ∀ j : Fin 26, j ≠ i → (b.payload.set i v)[j] = b.payload[j] := fun j hj =>
      Vector.getElem_set_ne i.isLt j.isLt (fun h => hj (Fin.ext h.symm))
    cases q with
    | payload j => exact set_ne j (fun h => hq (by rw [h]))
    | dw j => exact congrArg (· ^^^ Config.whitenMask) (set_ne j (fun h => hd i rfl (by rw [h])))
    | _ => rfl
  | gen h =>
    cases q with
    | gen k => exact half_ne b.gen (fun e => hq (by rw [e]))
    | _ => rfl
  | key h =>
    cases q with
    | key k => exact half_ne b.key (fun e => hq (by rw [e]))
    | _ => rfl
  | lstate h =>
    cases q with
    | lstate k => exact half_ne b.lstate (fun e => hq (by rw [e]))
    | _ => rfl
  | doff =>
    cases q with
    | doff => exact absurd rfl hq
    | _ => rfl
  | dlen =>
    cases q with
    | dlen => exact absurd rfl hq
    | _ => rfl
  | _ => rfl

/-- A store of a writable byte is read back. -/
theorem readPort_storePort_self (v : Byte) (b : Block) (a : Byte) (hw : writable a = true) :
    readPort (storePort v b (portOf a)) (portOf a) = v := by
  have key : ∀ a : Byte, writable a = true →
      (match portOf a with
        | .payload _ | .gen _ | .key _ | .doff | .dlen | .lstate _ => true
        | _ => false) = true := by decide
  have hk := key a hw
  cases h : portOf a with
  | payload i => exact Vector.getElem_set_self i.isLt
  | gen k => exact (half_setHalf k k b.gen v).trans (if_pos rfl)
  | key k => exact (half_setHalf k k b.key v).trans (if_pos rfl)
  | lstate k => exact (half_setHalf k k b.lstate v).trans (if_pos rfl)
  | doff => rfl
  | dlen => rfl
  | _ => rw [h] at hk; simp at hk

/-- The low nibble mask of STYPE and FLAGS, and the low five bits of SINFO (R65). -/
theorem low4_eq_and (x : Byte) : (x.extractLsb' 0 4).setWidth 8 = x &&& 0x0F := by
  revert x
  decide

theorem low5_eq_and (x : Byte) : (x.extractLsb' 0 5).setWidth 8 = x &&& 0x1F := by
  revert x
  decide

/-- An address that R66 does not list is not writable. -/
theorem writable_false (a : Byte) (h : ¬ within 0x00 0x19 a) (h' : ¬ within 0x44 0x4B a) : writable a = false := by
  rw [← Bool.not_eq_true, writable_iff]
  tauto

end Sys2Proof.Machine
end

