-- ==== Sys2Proof/Laws/Decode.lean ====
section
/-! SUPPORT. Fields of the encodings, and the BCD converters (spec/30_encoding.md, spec/43_decode.md R200, R201). -/

namespace Sys2Proof

@[simp] theorem opField_cmdByte (op arg : Nibble) : opField (cmdByte op arg) = op := by
  revert op arg
  decide

@[simp] theorem argField_cmdByte (op arg : Nibble) : argField (cmdByte op arg) = arg := by
  revert op arg
  decide

theorem cmdByte_fields (v : Byte) : cmdByte (opField v) (argField v) = v := by
  revert v
  decide

/-- The bits of a bus word (R99). -/
theorem busWord_getLsbD (we : Bool) (a d : Byte) (i : Nat) : (busWord we a d).getLsbD i =
    if i < 8 then d.getLsbD i else if i - 8 < 8 then a.getLsbD (i - 8) else (BitVec.ofBool we).getLsbD (i - 16) := by
  change (BitVec.ofBool we ++ a ++ d : BitVec (1 + 8 + 8)).getLsbD i = _
  rw [BitVec.getLsbD_append, BitVec.getLsbD_append]
  by_cases h : i < 8 <;> by_cases h' : i - 8 < 8 <;> simp [h, h', Nat.sub_sub]

@[simp] theorem weField_busWord (we : Bool) (a d : Byte) : weField (busWord we a d) = we := by
  rw [weField, busWord_getLsbD]
  cases we <;> rfl

@[simp] theorem addrField_busWord (we : Bool) (a d : Byte) : addrField (busWord we a d) = a := by
  apply BitVec.eq_of_getLsbD_eq
  intro i hi
  rw [addrField, BitVec.getLsbD_extractLsb', busWord_getLsbD, if_neg (by omega), if_pos (by omega)]
  simp [hi]

@[simp] theorem dataField_busWord (we : Bool) (a d : Byte) : dataField (busWord we a d) = d := by
  apply BitVec.eq_of_getLsbD_eq
  intro i hi
  rw [dataField, BitVec.getLsbD_extractLsb', busWord_getLsbD, if_pos (by omega)]
  simp [hi]

theorem busWord_fields (t : BusWord) : busWord (weField t) (addrField t) (dataField t) = t := by
  apply BitVec.eq_of_getLsbD_eq
  intro i hi
  rw [busWord_getLsbD, dataField, addrField, weField, BitVec.getLsbD_extractLsb', BitVec.getLsbD_extractLsb']
  by_cases h8 : i < 8
  · simp [h8]
  · by_cases h16 : i - 8 < 8
    · have h : 8 + (i - 8) = i := by omega
      simp [h8, h16, h]
    · have h : i = 16 := by omega
      subst h
      cases t.getLsbD 16 <;> rfl

end Sys2Proof

namespace Sys2Proof.Machine

/-- Two nibbles' exact weighted sum (R200). -/
theorem bcd_two (a b : Nibble) : bcd [a, b] = 10 * a.toNat + b.toNat := by
  simp [bcd]; omega

theorem bcd_three (a b c : Nibble) : bcd [a, b, c] = 100 * a.toNat + 10 * b.toNat + c.toNat := by
  simp [bcd]; omega

theorem bcd_six (a b c d e f : Nibble) : bcd [a, b, c, d, e, f] =
    100000 * a.toNat + 10000 * b.toNat + 1000 * c.toNat + 100 * d.toNat + 10 * e.toNat + f.toNat := by
  simp [bcd]; omega

theorem hi4_toNat (b : Byte) : (hi4 b).toNat = b.toNat / 16 := by
  revert b
  decide

theorem lo4_toNat (b : Byte) : (lo4 b).toNat = b.toNat % 16 := by
  revert b
  decide

end Sys2Proof.Machine
end

