-- ==== Sys2Proof/Laws/Digest.lean ====
section
/-! SUPPORT. The LFSR step, the keystream and the digest fold (spec/42_digest.md). -/

namespace Sys2Proof.Machine

@[simp] theorem lfsrStep_zero (g : Word16) : lfsrStep 0#16 g = 0#16 := by simp [lfsrStep]

/-- The step is linear in the key (R160). -/
theorem lfsrStep_xor (k₁ k₂ g : Word16) : lfsrStep (k₁ ^^^ k₂) g = lfsrStep k₁ g ^^^ lfsrStep k₂ g := by
  unfold lfsrStep
  rw [BitVec.getLsbD_xor]
  cases k₁.getLsbD 0 <;> cases k₂.getLsbD 0 <;> simp only [Bool.xor_false, Bool.xor_true, Bool.not_true,
    Bool.not_false, if_true, if_false, Bool.false_eq_true, BitVec.ushiftRight_xor_distrib] <;> (ac_nf; try simp)

theorem lfsrSteps_succ (g : Word16) (n : Nat) (k : Word16) :
    lfsrSteps g (n + 1) k = lfsrSteps g n (lfsrStep k g) := rfl

theorem lfsrSteps_eq_iterate (g : Word16) (n : Nat) (k : Word16) :
    lfsrSteps g n k = (fun x => lfsrStep x g)^[n] k := by
  induction n generalizing k with
  | zero => rfl
  | succ n ih => rw [lfsrSteps_succ, ih, Function.iterate_succ_apply]

theorem keyStream_eq_steps (g k : Word16) (j : Nat) : keyStream g k j = lfsrSteps g j k := by
  rw [lfsrSteps_eq_iterate]
  induction j with
  | zero => rfl
  | succ j ih => rw [Function.iterate_succ_apply', ← ih]; rfl

/-- `K_{j+n}` is `n` steps from `K_j` (R175, last corner case). -/
theorem keyStream_add (g k : Word16) (j n : Nat) : keyStream g k (j + n) = lfsrSteps g n (keyStream g k j) := by
  simp only [keyStream_eq_steps, lfsrSteps_eq_iterate]
  rw [Nat.add_comm, Function.iterate_add_apply]

/-- The keystream from the next key is the keystream one on. -/
theorem keyStream_next (g k : Word16) (j : Nat) : keyStream g (lfsrStep k g) j = keyStream g k (j + 1) := by
  simp only [keyStream_eq_steps, lfsrSteps_succ]

theorem keyStream_xor (g k₁ k₂ : Word16) (j : Nat) :
    keyStream g (k₁ ^^^ k₂) j = keyStream g k₁ j ^^^ keyStream g k₂ j := by
  induction j with
  | zero => rfl
  | succ j ih => simp only [keyStream, ih, lfsrStep_xor]

@[simp] theorem keyStream_zero_key (g : Word16) (j : Nat) : keyStream g 0#16 j = 0#16 := by
  induction j with
  | zero => rfl
  | succ j ih => simp [keyStream, ih]

/-- The digest of a list of bits, as one sum: bit `j` gates `K_j`. -/
def bitSum (g : Word16) : List Bool → Word16 → Word16
  | [], _ => 0
  | b :: bs, k => (if b then k else 0) ^^^ bitSum g bs (lfsrStep k g)

/-- The serial fold adds the bit sum to what it starts from. -/
theorem foldl_digestBit (g : Word16) (bs : List Bool) (sum k : Word16) :
    (bs.foldl (digestBit g) (sum, k)).1 = sum ^^^ bitSum g bs k := by
  induction bs generalizing sum k with
  | nil => simp [bitSum]
  | cons b bs ih =>
    rw [List.foldl_cons, digestBit, ih, bitSum]
    cases b <;> simp [BitVec.xor_assoc]

/-- The digest is the bit sum of the input bits (R161). -/
theorem digest16_eq_bitSum (bytes : List Byte) (len : Nat) (g k : Word16) :
    digest16 bytes len g k = bitSum g (inputBits (bytes.take len)) k := by
  rw [digest16, foldl_digestBit]
  simp

theorem bitSum_append (g : Word16) (bs cs : List Bool) (k : Word16) :
    bitSum g (bs ++ cs) k = bitSum g bs k ^^^ bitSum g cs (lfsrSteps g bs.length k) := by
  induction bs generalizing k with
  | nil => simp [bitSum, lfsrSteps]
  | cons b bs ih => simp [bitSum, ih, BitVec.xor_assoc, lfsrSteps_succ]

/-- The bit sum is linear in the key. -/
theorem bitSum_xor_key (g : Word16) (bs : List Bool) (k₁ k₂ : Word16) :
    bitSum g bs (k₁ ^^^ k₂) = bitSum g bs k₁ ^^^ bitSum g bs k₂ := by
  induction bs generalizing k₁ k₂ with
  | nil => simp [bitSum]
  | cons b bs ih =>
    simp only [bitSum, lfsrStep_xor, ih]
    cases b
    · simp
    · simp; ac_rfl

/-- The bit sum is linear in the bits. -/
theorem bitSum_xor_bits (g : Word16) (bs cs : List Bool) (k : Word16) (h : bs.length = cs.length) :
    bitSum g (List.zipWith (· ^^ ·) bs cs) k = bitSum g bs k ^^^ bitSum g cs k := by
  induction bs generalizing cs k with
  | nil => cases cs <;> simp_all [bitSum]
  | cons b bs ih =>
    obtain _ | ⟨c, cs⟩ := cs
    · simp at h
    · have ih' := ih cs (lfsrStep k g) (by simpa using h)
      simp only [List.zipWith_cons_cons, bitSum, ih']
      cases b <;> cases c <;> simp <;> (ac_nf; try simp)

theorem bitSum_false (g : Word16) (n : Nat) (k : Word16) : bitSum g (List.replicate n false) k = 0 := by
  induction n generalizing k with
  | zero => rfl
  | succ n ih => simp [List.replicate_succ, bitSum, ih]

@[simp] theorem bitSum_zero_key (g : Word16) (bs : List Bool) : bitSum g bs 0#16 = 0#16 := by
  induction bs with
  | nil => rfl
  | cons b bs ih => simp [bitSum, ih]

@[simp] theorem bitsMsbFirst_length (b : Byte) : (bitsMsbFirst b).length = 8 := rfl

@[simp] theorem inputBits_nil : inputBits [] = [] := rfl

@[simp] theorem inputBits_cons (b : Byte) (bs : List Byte) :
    inputBits (b :: bs) = bitsMsbFirst b ++ inputBits bs := rfl

theorem inputBits_length (bytes : List Byte) : (inputBits bytes).length = 8 * bytes.length := by
  induction bytes with
  | nil => rfl
  | cons b bs ih => simp [ih]; omega

theorem bitsMsbFirst_getElem (b : Byte) (j : Nat) (h : j < 8) :
    (bitsMsbFirst b)[j]'(by simpa using h) = b.getLsbD (7 - j) := by
  interval_cases j <;> rfl

/-- Input bit `j` is `bytes[j div 8][7 - (j mod 8)]` (R163). -/
theorem inputBits_getElem (bytes : List Byte) (j : Nat) (h : j < (inputBits bytes).length) :
    (inputBits bytes)[j] = inputBit bytes j := by
  induction bytes generalizing j with
  | nil => simp at h
  | cons b bs ih =>
    simp only [inputBits_cons]
    by_cases hj : j < 8
    · rw [List.getElem_append_left (by simpa using hj), bitsMsbFirst_getElem b j hj]
      have h0 : j / 8 = 0 := by omega
      simp [inputBit, h0, Nat.mod_eq_of_lt hj]
    · rw [List.getElem_append_right (by simpa using hj)]
      simp only [inputBits_cons, List.length_append, bitsMsbFirst_length] at h
      rw [ih]
      obtain ⟨m, rfl⟩ : ∃ m, j = m + 8 := ⟨j - 8, by omega⟩
      simp [inputBit]

/-- Bytewise XOR of the bytes is bitwise XOR of the input bits. -/
theorem inputBits_zipWith (xs ys : List Byte) :
    inputBits (List.zipWith (· ^^^ ·) xs ys) = List.zipWith (· ^^ ·) (inputBits xs) (inputBits ys) := by
  induction xs generalizing ys with
  | nil => rfl
  | cons x xs ih =>
    obtain _ | ⟨y, ys⟩ := ys
    · simp
    · simp only [List.zipWith_cons_cons, inputBits_cons, ih]
      rw [List.zipWith_append (by simp)]
      simp [bitsMsbFirst]

end Sys2Proof.Machine
end

