-- ==== Sys2Proof/Laws/Issue.lean ====
section
/-! SUPPORT. The classes of command bytes, and what issuing each does (spec/30_encoding.md R98,
spec/40_issue_and_control.md R122). -/

namespace Sys2Proof.Machine

open Sys2Proof.Safety

/-- R94. -/
theorem decodeCmd_illegal : ∀ v : Byte, 5 ≤ v.toNat / 16 → decodeCmd v = .reject .illegalOp := by decide

/-- R95. -/
theorem decodeCmd_badArg : ∀ v : Byte,
    within 0x01 0x0F v ∨ within 0x11 0x1F v ∨ within 0x22 0x2F v ∨ within 0x41 0x4F v →
      decodeCmd v = .reject .badArg := by
  simp only [within]
  decide

/-- The two DIGEST bytes (R92). -/
theorem decodeCmd_digest (v : Byte) (h : v = 0x20 ∨ v = 0x21) : ∃ w, decodeCmd v = .instr (.digest w) := by
  obtain rfl | rfl := h
  · exact ⟨.raw, by decide⟩
  · exact ⟨.dw, by decide⟩

theorem issueCommand_busy (v : Byte) (b : Block) (hb : b.busy = true) : issueCommand v b = dropBusyWrite b := by
  simp [issueCommand, hb]

theorem issueCommand_reject (v : Byte) (b : Block) (c : ErrCause) (hb : b.busy = false)
    (h : decodeCmd v = .reject c) : issueCommand v b = cmdError c b := by
  simp [issueCommand, hb, h]

theorem issueCommand_instr (v : Byte) (b : Block) (i : Instr) (hb : b.busy = false) (h : decodeCmd v = .instr i) :
    issueCommand v b = if acceptable i b then accept v b else cmdError .range b := by
  simp [issueCommand, hb, h]

/-- The range check (R243). -/
theorem issueCommand_digest (v : Byte) (b : Block) (hb : b.busy = false) (h : v = 0x20 ∨ v = 0x21) :
    issueCommand v b = if b.doff.toNat + b.dlen.toNat ≤ 26 then accept v b else cmdError .range b := by
  obtain ⟨w, hd⟩ := decodeCmd_digest v h
  simp [issueCommand_instr v b _ hb hd, acceptable, digestInRange]

/-- Every other legal byte is accepted when idle (R122). -/
theorem issueCommand_other (v : Byte) (b : Block) (hb : b.busy = false)
    (h : v = 0x00 ∨ v = 0x10 ∨ within 0x30 0x3F v ∨ v = 0x40) : issueCommand v b = accept v b := by
  have key : ∀ v : Byte, (v = 0x00 ∨ v = 0x10 ∨ within 0x30 0x3F v ∨ v = 0x40) →
      (match decodeCmd v with
        | .instr (.digest _) => false
        | .instr _ => true
        | .reject _ => false) = true := by
    simp only [within]
    decide
  have hk := key v h
  cases hd : decodeCmd v with
  | reject c => simp [hd] at hk
  | instr i =>
    rw [issueCommand_instr v b i hb hd]
    cases i <;> simp_all [acceptable]

end Sys2Proof.Machine
end

