-- ==== Sys2Proof/Laws/Step.lean ====
section
/-! SUPPORT. What a command and a step can do, said once. -/

namespace Sys2Proof.Machine

open Sys2Proof.Safety

/-- The block a command's commit leaves, before BUSY and DONE (R125). -/
def commandBlock : Instr → Block → Block
  | .nop, b => b
  | .decode, b => decodeBlock b
  | .digest v, b => digestBlock v b
  | .lstep n, b => lstepBlock n b
  | .clear, b => clearBlock b
  | .rd _, b => b
  | .wr _ _, b => b

/-- A command that answers a next state commits its own writes, and BUSY and DONE (R125). -/
theorem exec_command (i : Instr) (s t : State) (hi : i.isCommand = true) (h : exec i s = .next t) :
    t = s.withBlk (finish (commandBlock i s.blk)) := by
  cases i with
  | nop => cases h; rfl
  | decode => cases h; rfl
  | lstep n => cases h; rfl
  | clear => cases h; rfl
  | digest v =>
    simp only [exec, execDigest] at h
    split at h
    · cases h; rfl
    · cases h
  | rd a => simp [Instr.isCommand] at hi
  | wr a d => simp [Instr.isCommand] at hi

/-- A command whose acceptance check holds commits. -/
theorem exec_acceptable (i : Instr) (s : State) (hi : i.isCommand = true) (ha : acceptable i s.blk = true) :
    exec i s = .next (s.withBlk (finish (commandBlock i s.blk))) := by
  cases i with
  | digest v => simp only [acceptable] at ha; simp [exec, execDigest, ha, commitWith, commandBlock]
  | nop => rfl
  | decode => rfl
  | lstep n => rfl
  | clear => rfl
  | rd a => simp [Instr.isCommand] at hi
  | wr a d => simp [Instr.isCommand] at hi

/-- A command byte decodes to a command. -/
theorem decodeCmd_isCommand (v : Byte) (i : Instr) (h : decodeCmd v = .instr i) : i.isCommand = true := by
  have key : ∀ v : Byte, (match decodeCmd v with | .instr i => i.isCommand | .reject _ => true) = true := by
    decide
  have := key v
  rwa [h] at this

/-- What DECODE can write: one of three outcomes (R233). -/
theorem decodeBlock_cases (b : Block) :
    (b.payload[21] = 0x00 ∧ decodeBlock b = setOutcome .invalid false b) ∨
    (b.payload[21] ≠ 0x00 ∧ checksumField b.payload ^^^ frameDigest b.payload ≠ 0x6DF1 ∧
      decodeBlock b = setOutcome .digErr false (setDigest b)) ∨
    (b.payload[21] ≠ 0x00 ∧ checksumField b.payload ^^^ frameDigest b.payload = 0x6DF1 ∧
      decodeBlock b = setOutcome .ok true (setRecord (setDigest b))) := by
  have hs : sanityFails b.payload = true ↔ b.payload[21] = 0x00 := by
    change (b.payload[21] == 0x00) = true ↔ _
    exact beq_iff_eq
  have hv : validatorPasses (checksumField b.payload) (frameDigest b.payload) = true ↔
      checksumField b.payload ^^^ frameDigest b.payload = 0x6DF1 := by
    simp [validatorPasses]
  by_cases h1 : sanityFails b.payload = true
  · exact .inl ⟨hs.1 h1, by simp [decodeBlock, frameStatus, h1]⟩
  · by_cases h2 : validatorPasses (checksumField b.payload) (frameDigest b.payload) = true
    · exact .inr (.inr ⟨mt hs.2 h1, hv.1 h2, by simp [decodeBlock, frameStatus, h1, h2]⟩)
    · exact .inr (.inl ⟨mt hs.2 h1, mt hv.2 h2, by simp [decodeBlock, frameStatus, h1, h2]⟩)

/-- Everything a host turn can do to the block: nothing, or one `MemWrite` its program's next word spells. -/
theorem hostTurn_cases (s t : State) (h : hostTurn s = .next t) :
    t.sched = s.sched ∧
    (t.blk = s.blk ∨ ∃ a v dest ps, s.prog = .xfer (busWord true a v) dest :: ps ∧
      t.blk = memWrite a v s.blk) := by
  unfold hostTurn at h
  split at h
  · cases h; exact ⟨rfl, .inl rfl⟩
  · rename_i w dest ps hp
    by_cases hw : weField w = true
    · have hd : decodeBus w = .wr (addrField w) (dataField w) := by simp [decodeBus, hw]
      rw [hd] at h
      cases h
      refine ⟨rfl, .inr ⟨addrField w, dataField w, dest, ps, ?_, rfl⟩⟩
      rw [hp, ← hw, busWord_fields]
    · have hd : decodeBus w = .rd (addrField w) := by simp [decodeBus, hw]
      rw [hd] at h
      cases h
      cases dest <;> exact ⟨rfl, .inl rfl⟩
  · cases h
    constructor <;> [skip; left] <;> · unfold pollAgain; split <;> rfl

/-- Every host turn answers a next state (R240). -/
theorem hostTurn_next (s : State) : ∃ t, hostTurn s = .next t := by
  unfold hostTurn
  split
  · exact ⟨_, rfl⟩
  · rename_i w dest ps hp
    unfold decodeBus
    split <;> exact ⟨_, rfl⟩
  · exact ⟨_, rfl⟩

/-- Everything a step can do: a reset, an idle engine's turn, a commit, or a host's turn. -/
theorem step_cases (s t : State) (h : step s = .next t) :
    (mover s = .reset ∧ t.blk = Block.reset) ∨
    (mover s = .engine ∧ s.blk.busy = false ∧ t.blk = s.blk) ∨
    (mover s = .engine ∧ s.blk.busy = true ∧ ∃ i, decodeCmd s.blk.pend = .instr i ∧
      t.blk = finish (commandBlock i s.blk)) ∨
    (mover s = .host ∧ (s.sched = [] → s.blk.busy = false) ∧
      (t.blk = s.blk ∨ ∃ a v dest ps, s.prog = .xfer (busWord true a v) dest :: ps ∧
        t.blk = memWrite a v s.blk)) := by
  have engine : ∀ u : State, engineTurn u = .next t →
      (u.blk.busy = false ∧ t.blk = u.blk) ∨
      (u.blk.busy = true ∧ ∃ i, decodeCmd u.blk.pend = .instr i ∧ t.blk = finish (commandBlock i u.blk)) := by
    intro u hu
    unfold engineTurn at hu
    split at hu
    · rename_i hb
      unfold commit at hu
      split at hu
      · rename_i i hd
        refine .inr ⟨hb, i, hd, ?_⟩
        rw [exec_command i u t (decodeCmd_isCommand _ _ hd) hu, State.withBlk_blk]
      · cases hu
    · rename_i hb
      cases hu
      exact .inl ⟨by simpa using hb, rfl⟩
  cases hs : s.sched with
  | nil =>
    simp only [step, hs, freeTurn] at h
    by_cases hb : s.blk.busy = true
    · rw [if_pos hb] at h
      have hm : mover s = .engine := by simp [mover, hs, hb]
      obtain ⟨hb', -⟩ | he := engine s h
      · simp [hb] at hb'
      · exact .inr (.inr (.inl ⟨hm, he⟩))
    · rw [if_neg hb] at h
      have hm : mover s = .host := by simp [mover, hs, hb]
      exact .inr (.inr (.inr ⟨hm, fun _ => by simpa using hb, (hostTurn_cases s t h).2⟩))
  | cons m ts =>
    have hm : mover s = m := by simp [mover, hs]
    simp only [step, hs] at h
    cases m with
    | host => exact .inr (.inr (.inr ⟨hm, by simp, (hostTurn_cases _ t h).2⟩))
    | engine =>
      obtain he | he := engine _ h
      · exact .inr (.inl ⟨hm, he⟩)
      · exact .inr (.inr (.inl ⟨hm, he⟩))
    | reset => cases h; exact .inl ⟨hm, rfl⟩

/-- What the commit of a pending command leaves alone (R125, R127). -/
theorem commandBlock_frame (i : Instr) (b : Block) :
    SameInputs b (commandBlock i b) ∧ (commandBlock i b).busy = b.busy ∧ (commandBlock i b).done = b.done ∧
    (commandBlock i b).err = b.err ∧ (commandBlock i b).errcode = b.errcode ∧
    (commandBlock i b).pend = b.pend := by
  cases i with
  | decode =>
    obtain ⟨-, he⟩ | ⟨-, -, he⟩ | ⟨-, -, he⟩ := decodeBlock_cases b <;> simp [commandBlock, he, SameInputs]
  | nop => simp [commandBlock, SameInputs]
  | digest v => simp [commandBlock, SameInputs]
  | lstep n => simp [commandBlock, SameInputs]
  | clear => simp [commandBlock, SameInputs]
  | rd a => simp [commandBlock, SameInputs]
  | wr a d => simp [commandBlock, SameInputs]

end Sys2Proof.Machine
end

