-- ==== Sys2Proof/Laws/Names.lean ====
section
/-! SUPPORT. Reading back what named reads bound (spec/30_encoding.md R100, R102), and the host's step of a named read;
the turns that leave the host's side alone. -/

namespace Sys2Proof.Machine

/-- The newest binding of a name decides (log entry 10). -/
theorem boundByte_cons (n m : HostName) (v : Byte) (s : State) (bs : List (HostName × Byte))
    (h : s.names = (m, v) :: bs) :
    boundByte n s = if m = n then some v else boundByte n { s with names := bs } := by
  by_cases hm : m = n <;> simp [boundByte, h, hm]

/-- A name's value depends on the bindings alone. -/
theorem boundByte_congr (n : HostName) (s t : State) (h : t.names = s.names) : boundByte n t = boundByte n s := by
  simp [boundByte, h]

/-- The host's turn of a named read: the byte of the map, bound, and nothing else but program and schedule. -/
theorem step_named_read (s : State) (a : Byte) (n : HostName) (ps : List HostOp) (ts : List Turn)
    (hs : s.sched = .host :: ts) (hp : s.prog = .xfer (busWord false a 0x00) (some n) :: ps) :
    step s = .next
      { s with
        rdata := memRead a s.blk, prog := ps, names := (n, memRead a s.blk) :: s.names, sched := ts } := by
  simp [step, hs, takeTurn, hostTurn, hp, decodeBus, exec, execRd, mapNext, bindRead]

/-- A command's commit changes the block alone. -/
theorem exec_command_outside (i : Instr) (s t : State) (hi : i.isCommand = true) (h : exec i s = .next t) :
    t.rdata = s.rdata ∧ t.prog = s.prog ∧ t.names = s.names ∧ t.sched = s.sched := by
  rw [exec_command i s t hi h]
  exact ⟨rfl, rfl, rfl, rfl⟩

/-- An engine turn or a reset leaves the host's program and names, and moves the schedule on. -/
theorem step_other_turn (s t : State) (m : Turn) (ts : List Turn) (hs : s.sched = m :: ts) (hm : m ≠ .host)
    (h : step s = .next t) : t.prog = s.prog ∧ t.names = s.names ∧ t.sched = ts := by
  simp only [step, hs] at h
  cases m with
  | host => exact absurd rfl hm
  | reset => cases h; exact ⟨rfl, rfl, rfl⟩
  | engine =>
    simp only [takeTurn, engineTurn] at h
    split at h
    · unfold commit at h
      split at h
      · rename_i i hd
        have := exec_command_outside i _ t (decodeCmd_isCommand _ _ hd) h
        exact ⟨this.2.1, this.2.2.1, this.2.2.2⟩
      · cases h
    · cases h; exact ⟨rfl, rfl, rfl⟩

end Sys2Proof.Machine
end

