-- ==== Sys2Proof/Laws/PerInstr.lean ====
section
/-! SUPPORT. Family TableRow: the encoding of a well-formed instruction has the fixed bits of its opcode-table row
(spec/opcode_table.json; spec/30_encoding.md R103). -/

namespace Sys2Proof.Laws.TableRow

open Sys2Proof

/-- The `match` and `mask` columns of an instruction's row. -/
def row : Instr → Nat × Nat
  | .nop => (0x00, 0xFF)
  | .decode => (0x10, 0xFF)
  | .digest _ => (0x20, 0xFE)
  | .lstep _ => (0x30, 0xF0)
  | .clear => (0x40, 0xFF)
  | .rd _ => (0x00000, 0x10000)
  | .wr _ _ => (0x10000, 0x10000)

/-- A word as the number the table's columns are compared with. -/
def codeBits : Code → Nat
  | .cmd v => v.toNat
  | .bus t => t.toNat

/-- The encoding, under the row's mask, is the row's match. -/
def Statement (i : Instr) : Prop := i.WellFormed = true → codeBits (encode i) &&& (row i).2 = (row i).1

/-- The `WE` bit of a bus word under the mask of the RD and WR rows. -/
theorem codeBits_busWord (we : Bool) (a d : Byte) :
    codeBits (.bus (busWord we a d)) &&& 0x10000 = if we then 0x10000 else 0 := by
  have h : (busWord we a d).toNat.testBit 16 = we := weField_busWord we a d
  rw [codeBits, show (0x10000 : Nat) = 2 ^ 16 from rfl, Nat.and_two_pow, h]
  cases we <;> rfl

theorem nop : Statement .nop := fun _ => rfl

theorem decode : Statement .decode := fun _ => rfl

theorem digest (v : View) : Statement (.digest v) := fun _ => by cases v <;> rfl

theorem lstep (n : Nat) : Statement (.lstep n) := by
  intro h
  simp only [Instr.WellFormed, decide_eq_true_eq] at h
  obtain ⟨h1, h2⟩ := h
  interval_cases n <;> rfl

theorem clear : Statement .clear := fun _ => rfl

theorem rd (addr : Byte) : Statement (.rd addr) := fun _ => codeBits_busWord false addr 0x00

theorem wr (addr data : Byte) : Statement (.wr addr data) := fun _ => codeBits_busWord true addr data

end Sys2Proof.Laws.TableRow
end

