-- ==== Sys2Proof/Laws/Record.lean ====
section
/-! SUPPORT. The record's values: ranges of the converters, the temperature word, SINFO; the frame's digest and
checksum; a built frame (spec/43_decode.md). -/

namespace Sys2Proof.Machine

/-- Two nibbles give 0 to 165 (R200). -/
theorem bcd_two_le (a b : Nibble) : bcd [a, b] ≤ 165 := by rw [bcd_two]; omega

/-- Three nibbles give 0 to 1665 (R200). -/
theorem bcd_three_le (a b c : Nibble) : bcd [a, b, c] ≤ 1665 := by rw [bcd_three]; omega

/-- Six nibbles give 0 to 1666665 (R200). -/
theorem bcd_six_le (a b c d e f : Nibble) : bcd [a, b, c, d, e, f] ≤ 1666665 := by rw [bcd_six]; omega

/-- The raw temperature fits its register (R215). -/
theorem rawTemp_le (p : Payload) : rawTemp p ≤ 1665 := bcd_three_le _ _ _

/-- A converter of three digits fits a 16-bit register. -/
theorem ofNat_bcd_three (a b c : Nibble) :
    (BitVec.ofNat 16 (bcd [a, b, c])).toNat = 100 * a.toNat + 10 * b.toNat + c.toNat := by
  rw [BitVec.toNat_ofNat, bcd_three, Nat.mod_eq_of_lt]; omega

/-- A converter of two digits fits an 8-bit register. -/
theorem ofNat_bcd_two (a b : Nibble) : (BitVec.ofNat 8 (bcd [a, b])).toNat = 10 * a.toNat + b.toNat := by
  rw [BitVec.toNat_ofNat, bcd_two, Nat.mod_eq_of_lt]; omega

/-- A converter of six digits fits a 24-bit register. -/
theorem ofNat_bcd_six (a b c d e f : Nibble) : (BitVec.ofNat 24 (bcd [a, b, c, d, e, f])).toNat =
    100000 * a.toNat + 10000 * b.toNat + 1000 * c.toNat + 100 * d.toNat + 10 * e.toNat + f.toNat := by
  rw [BitVec.toNat_ofNat, bcd_six, Nat.mod_eq_of_lt]; omega

/-- The temperature word holds the offset temperature exactly (R216). -/
theorem tempWord_toInt (t : Nat) (h : t ≤ 1665) :
    (tempWord t).toInt = if t > 600 then (t : Int) - 1000 else t := by
  unfold tempWord tempOffset
  rw [BitVec.toInt_ofInt]
  simp only [Config.tempWrap, Config.tempBias]
  split <;> rw [Int.bmod_eq_of_le] <;> omega

/-- STYPE (R203). -/
theorem hi4_setWidth (b : Byte) : (hi4 b).setWidth 8 = b >>> 4 := by
  revert b
  decide

/-- FLAGS (R206). -/
theorem lo4_setWidth (b : Byte) : (lo4 b).setWidth 8 = b &&& 0x0F := by
  revert b
  decide

/-- Battery low is both bits of mask 0x06 of byte 15 (R207). -/
theorem battLow_lo4 (b : Byte) : battLow (lo4 b) = decide (b &&& 0x06 = 0x06) := by
  revert b
  decide

/-- SINFO read back field by field (R43). -/
theorem packSinfo_fields (a b : Byte) :
    (packSinfo a b).toNat ≤ 31 ∧ chanOf (packSinfo a b) = a.extractLsb' 0 3 ∧
    startupOf (packSinfo a b) = (!a.getLsbD 3) ∧
    battOkOf (packSinfo a b) = !decide (b &&& 0x06 = 0x06) := by
  have key : ∀ (x : Bool) (a : Byte),
      let v : Byte := (0 : BitVec 3) ++ BitVec.ofBool (!x) ++ BitVec.ofBool (!a.getLsbD 3) ++
        (a.extractLsb' 0 3 : BitVec 3)
      v.toNat ≤ 31 ∧ chanOf v = a.extractLsb' 0 3 ∧ startupOf v = (!a.getLsbD 3) ∧ battOkOf v = !x := by
    decide
  rw [← battLow_lo4]
  exact key (battLow (lo4 b)) a

/-- SINFO as a sum of its masks (R204, R205, R207). -/
theorem packSinfo_eq_or (a b : Byte) : packSinfo a b =
    (if b &&& 0x06 = 0x06 then 0x00 else 0x10) ||| (if a.getLsbD 3 then 0x00 else 0x08) ||| (a &&& 0x07) := by
  have key : ∀ (x : Bool) (a : Byte),
      ((0 : BitVec 3) ++ BitVec.ofBool (!x) ++ BitVec.ofBool (!a.getLsbD 3) ++
        (a.extractLsb' 0 3 : BitVec 3) : Byte) =
      (if x then 0x00 else 0x10) ||| (if a.getLsbD 3 then 0x00 else 0x08) ||| (a &&& 0x07) := by
    decide
  unfold packSinfo
  rw [key, battLow_lo4]
  simp

/-- De-whitening twice gives the byte back (R151). -/
theorem dewhiten_dewhiten (a : Byte) : a ^^^ 0xAA ^^^ 0xAA = a := by
  rw [BitVec.xor_assoc]
  simp

theorem viewBytes_length (v : View) (p : Payload) : (viewBytes v p).length = 26 := by
  cases v <;> simp [viewBytes]

/-- A range of a view that lies in the payload, byte by byte (R170). -/
theorem viewRange_eq (v : View) (p : Payload) (o n : Nat) (h : o + n ≤ 26) :
    viewRange v o n p =
      (List.range n).map fun i => p.toList.getD (o + i) 0 ^^^ (if v = .dw then 0xAA else 0x00) := by
  apply List.ext_getElem
  · simp only [viewRange, List.length_take, List.length_drop, viewBytes_length, List.length_map, List.length_range]
    omega
  · intro i _ hi
    simp only [List.length_map, List.length_range] at hi
    have h3 : o + i < p.toList.length := by simp only [Vector.length_toList]; omega
    have h4 : p.toList.getD (o + i) 0 = p.toList[o + i] := by
      rw [List.getD_eq_getElem?_getD, List.getElem?_eq_getElem h3]; rfl
    simp only [viewRange, List.getElem_take, List.getElem_drop, List.getElem_map, List.getElem_range, h4]
    cases v <;> simp [viewBytes]

/-- The digest DECODE computes, over de-whitened bytes 2 to 24 (R195). -/
theorem frameDigest_eq (p : Payload) :
    frameDigest p = digest16 (List.ofFn fun j : Fin 23 => p[j.val + 2] ^^^ 0xAA) 23 0x8810 0xBA95 := by
  unfold frameDigest
  congr 1
  apply List.ext_getElem
  · simp [viewRange, viewBytes, Config.digLen, Config.digOff]
  · intro i h1 h2
    simp only [viewRange, viewBytes, List.getElem_take, List.getElem_drop, List.getElem_map, List.getElem_ofFn,
      Vector.getElem_toList, Config.digOff, Nat.add_comm 2 i]

/-- A built frame's bytes from 2 on are those it was built from, whitened. -/
theorem validFrame_getElem (w : Vector Byte 26) (i : Nat) (h : i < 26) (h2 : 2 ≤ i) :
    (validFrame w)[i] = w[i] ^^^ 0xAA := by
  simp only [validFrame, Vector.getElem_map]
  rw [Vector.getElem_set_ne _ _ (by omega), Vector.getElem_set_ne _ _ (by omega)]

end Sys2Proof.Machine
end

