-- ==== Sys2Proof/Tests/Slice0.lean ====
section
/-! SUPPORT. The model's own tests. Expected values come from spec/: each test's comment names the place. The
theorems named `test_meets_…` show states and operands that meet the hypotheses of the statement they name, at the
boundary values of its clauses. -/

namespace Sys2Proof.Tests

open Sys2Proof.Machine Sys2Proof.Safety

/-! ### Helpers -/

/-- A field of the next state, where there is one. -/
def after {α : Type} (o : Host.Outcome State Fault Refusal) (f : State → α) : Option α :=
  match o with
  | .next s => some (f s)
  | .fault _ => none
  | .refused _ => none

/-- What addresses `a` to `a + n - 1` read. -/
def bytes (a n : Nat) (s : State) : List Byte :=
  (List.range n).map fun i => memRead (BitVec.ofNat 8 (a + i)) s.blk

/-- The reset machine with a payload. -/
def withPayload (p : Payload) : State := State.reset.withBlk { Block.reset with payload := p }

/-- The reset machine with a digest range. -/
def withRange (doff dlen : Byte) : State := State.reset.withBlk { Block.reset with doff := doff, dlen := dlen }

/-- The reset machine with a command pending. -/
def pending (v : Byte) : State := State.reset.withBlk { Block.reset with busy := true, pend := v }

/-- The machine with turns to come. -/
def turns (ts : List Turn) (s : State) : State := { s with sched := ts }

/-- The machine with one bus word for the host to perform. -/
def hostWord (t : BusWord) (dest : Option HostName) (s : State) : State := { s with prog := [.xfer t dest] }

/-- The reset machine with names bound, newest first. -/
def named (bs : List (String × NamePart × Byte)) : State :=
  { State.reset with names := bs.map fun b => ({ base := b.1, part := b.2.1 }, b.2.2) }

/-- The payload of 95_test_vectors.md E1 (V1), as sent. -/
def frameV1 : Payload :=
  #v[0xC4, 0xD6, 0x3A, 0xC5, 0xBD, 0xFA, 0x18, 0xAA, 0xAA, 0xAA, 0xAA, 0xAB, 0xFC,
     0xAA, 0x98, 0xDA, 0x89, 0xA3, 0x2F, 0xEC, 0xAF, 0x9A, 0xAA, 0xAA, 0xAA, 0x00]

/-- The same, de-whitened, from E1. -/
def frameV1Dw : Vector Byte 26 :=
  #v[0x6E, 0x7C, 0x90, 0x6F, 0x17, 0x50, 0xB2, 0x00, 0x00, 0x00, 0x00, 0x01, 0x56,
     0x00, 0x32, 0x70, 0x23, 0x09, 0x85, 0x46, 0x05, 0x30, 0x00, 0x00, 0x00, 0xAA]

/-- V1 with one bit of byte 24 flipped. -/
def frameV1Bad : Payload := frameV1.set 24 (frameV1[24] ^^^ ((1 : Byte) <<< 7))

/-! ### Well-formedness: each check refuses an ill-formed term (R101) -/

theorem test_wellFormed_lstep_zero_refused : (Instr.lstep 0).WellFormed = false := by decide
theorem test_wellFormed_lstep_17_refused : (Instr.lstep 17).WellFormed = false := by decide
theorem test_wellFormed_lstep_bounds : (Instr.lstep 1).WellFormed = true ∧ (Instr.lstep 16).WellFormed = true := by
  decide

/-! ### Decoding: words written out from R90 to R92 and R99 -/

theorem test_decode_nop : decodeTableWord 8 0b00000000 = some .nop := by decide
theorem test_decode_decode : decodeTableWord 8 0b00010000 = some .decode := by decide
theorem test_decode_digest :
    decodeTableWord 8 0b00100000 = some (.digest .raw) ∧ decodeTableWord 8 0b00100001 = some (.digest .dw) := by
  decide
theorem test_decode_lstep :
    decodeTableWord 8 0b00110000 = some (.lstep 1) ∧ decodeTableWord 8 0b00111111 = some (.lstep 16) := by decide
theorem test_decode_clear : decodeTableWord 8 0b01000000 = some .clear := by decide
theorem test_decode_rd : decodeTableWord 24 0b00100000100000000 = some (.rd 0x41) := by decide
/-- R99: a decoder ignores DATA when WE = 0. -/
theorem test_decode_rd_ignores_data : decodeTableWord 24 0b00100000111111111 = some (.rd 0x41) := by decide
/-- R99's own example, `0x14010`. -/
theorem test_decode_wr : decodeTableWord 24 0x14010 = some (.wr 0x40 0x10) := by decide
theorem test_encode_wr : encode (.wr 0x40 0x10) = .bus 0x14010 := by decide
/-- R94, R95: rejected, by name. -/
theorem test_decode_rejects :
    decodeCmd 0x01 = .reject .badArg ∧ decodeCmd 0x22 = .reject .badArg ∧ decodeCmd 0x4F = .reject .badArg ∧
    decodeCmd 0x50 = .reject .illegalOp ∧ decodeCmd 0xFF = .reject .illegalOp := by decide

/-! ### One step of each instruction -/

/-- R130, example: from STATUS 0x60, NOP leaves 0x40. -/
theorem test_nop_status :
    after (exec .nop (State.reset.withBlk { Block.reset with busy := true })) (bytes 0x41 2) =
      some [0x40, 0x00] := by decide

/-- E1: STATUS, ERRCODE, DSUM, CHK and the record of V1. -/
theorem test_decode_v1 :
    after (exec .decode (withPayload frameV1)) (bytes 0x41 2) = some [0x59, 0x00] ∧
    after (exec .decode (withPayload frameV1)) (bytes 0x4C 29) = some
      [0x03, 0x8D, 0x6E, 0x7C, 0x90, 0x6F, 0x01, 0x1A, 0x00, 0xFF, 0x00, 0xAF, 0x00, 0x00, 0x00, 0x00, 0x00,
       0x00, 0x9C, 0x17, 0x01, 0x47, 0x01, 0x80, 0xF2, 0x00, 0x35, 0x01, 0x47] := by decide +kernel

/-- V11 and R234: with raw byte 21 zero, INVALID, and the record keeps its earlier byte. -/
theorem test_decode_invalid_keeps_record :
    after (exec .decode (State.reset.withBlk
      { Block.reset with payload := frameV1.set 21 0x00, record := { Record.zero with hum := 0x17 } }))
      (fun t => (bytes 0x41 1 t, bytes 0x5F 1 t)) = some ([0x40], [0x17]) := by decide

/-- R170, example: in the reset state DIGEST.DW gives 0x6D5B and DIGEST.RAW 0x0000. -/
theorem test_digest_reset :
    after (exec (.digest .dw) State.reset) (bytes 0x4C 2) = some [0x6D, 0x5B] ∧
    after (exec (.digest .raw) State.reset) (bytes 0x4C 2) = some [0x00, 0x00] := by decide +kernel

/-- E1: over V1 the format digest is 0x038D. -/
theorem test_digest_v1 :
    after (exec (.digest .dw) (withPayload frameV1)) (bytes 0x4C 2) = some [0x03, 0x8D] := by decide +kernel

/-- R175, example: one step gives 0xD55A, sixteen 0x6AFB. -/
theorem test_lstep_one : after (exec (.lstep 1) State.reset) (bytes 0x4A 2) = some [0xD5, 0x5A] := by
  decide
theorem test_lstep_sixteen : after (exec (.lstep 16) State.reset) (bytes 0x4A 2) = some [0x6A, 0xFB] := by
  decide +kernel

/-- R131, example: from STATUS 0x59 CLEAR leaves 0x40, and it keeps LSTATE. -/
theorem test_clear :
    after (exec .clear (State.reset.withBlk
      { Block.reset with valid := true, complete := true, code := 1, dsum := 0x038D, lstate := 0x1234 }))
      (fun t => (bytes 0x41 1 t, bytes 0x4A 4 t)) = some ([0x40], [0x12, 0x34, 0x00, 0x00]) := by decide

/-- R65: a read of GEN's high byte after reset, and of a reserved address. -/
theorem test_rd : after (exec (.rd 0x44) State.reset) (·.rdata) = some 0x88 ∧
    after (exec (.rd 0x43) State.reset) (·.rdata) = some 0x00 := by decide

/-- R66: one byte of a 16-bit register, and the window of a payload byte (95_test_vectors.md §2.1: 0x9A → 0x30). -/
theorem test_wr : after (exec (.wr 0x45 0x9A) State.reset) (bytes 0x44 2) = some [0x88, 0x9A] ∧
    after (exec (.wr 0x15 0x9A) State.reset) (bytes 0x35 1) = some [0x30] := by decide

/-- R122, R170: 255 + 27 is a RANGE error. -/
theorem test_wr_cmd_range :
    after (exec (.wr 0x40 0x20) (withRange 0xFF 0x1B)) (bytes 0x41 2) = some [0x60, 0x03] := by decide

/-- A table word stored where its agent fetches runs in the very next step. -/
theorem test_step_runs_command_word :
    after (step (State.reset.withFetchWord 8 0x30)) (bytes 0x4A 2) = some [0xD5, 0x5A] := by decide
theorem test_step_runs_bus_word :
    after (step (State.reset.withFetchWord 24 0x04400)) (·.rdata) = some 0x88 := by decide

/-- R102: `wait` is `poll 0x41, 0x80, 0x00`; R101: `LSTEP 17` is no spelling. -/
theorem test_expand_wait : expand .wait = some [.poll 0x41 0x80 0x00] := by decide
theorem test_spelling_lstep_17 : mnemonicByte (.LSTEP 17) = none := by decide

/-- 95_test_vectors.md §3, program P2: d1 = 0x6D5B from its two bytes; E1: LUX = 98546 from 01 80 F2. A newer binding
of a name hides an older one. -/
theorem test_name_values :
    boundWord16 "d1" (named [("d1", .lo, 0x5B), ("d1", .hi, 0x6D), ("d1", .hi, 0x00)]) = some 0x6D5B ∧
    (boundWord24 "lux" (named [("lux", .b0, 0xF2), ("lux", .b1, 0x80), ("lux", .b2, 0x01)])).map (·.toNat) =
      some 98546 ∧
    boundWord16 "d1" (named [("d1", .hi, 0x6D)]) = none := by decide

/-- R216's boundary: 600 stays 600, 601 becomes -399 (0xFE71). -/
theorem test_temperature_boundary : tempWord 600 = 0x0258 ∧ tempWord 601 = 0xFE71 := by decide

/-- R197: E1's frame is the one its de-whitened bytes 2 to 25 build. -/
theorem test_validFrame_v1 : validFrame frameV1Dw = frameV1 := by decide +kernel

/-! ### Witnesses of the statements' hypotheses -/

theorem test_statusInv_of_reset : StatusInv Block.reset := by constructor <;> decide
theorem test_statusInv_of_pending_decode : StatusInv (pending 0x10).blk := by constructor <;> decide
theorem test_recordInv_of_pending_decode : RecordInv (pending 0x10).blk.record := by constructor <;> decide
theorem test_pendingAccepted_of_pending_decode : PendingAccepted (pending 0x10).blk :=
  fun _ => ⟨.decode, by decide, by decide⟩

/-- A busy machine that meets the invariant, a DECODE pending. -/
theorem test_inv_of_pending_decode (ts : List Turn) : Inv (turns ts (pending 0x10)) :=
  { pending := test_pendingAccepted_of_pending_decode
    status := test_statusInv_of_pending_decode
    record := test_recordInv_of_pending_decode
    valid_written := fun h => absurd h (by change ¬ ((pending 0x10).blk.valid = true); decide) }

theorem test_meets_EncodeUndoesDecode :
    ((Code.cmd 0x3F).canonical = true ∧ decode (.cmd 0x3F) = .instr (.lstep 16)) ∧
    ((Code.bus 0x05000).canonical = true ∧ decode (.bus 0x05000) = .instr (.rd 0x50)) := by decide

/-- The bounds of the reserved and read-only ranges. -/
theorem test_meets_ReservedAddressesReadZeroIgnoreWrites :
    within 0x1A 0x1F 0x1A ∧ within 0x1A 0x1F 0x1F ∧ within 0x3A 0x3F 0x3A ∧ within 0x3A 0x3F 0x3F ∧
    within 0x69 0xFF 0x69 ∧ within 0x69 0xFF 0xFF := by unfold within; decide
theorem test_meets_ReadOnlyWritesAreIgnored :
    within 0x20 0x39 0x20 ∧ within 0x20 0x39 0x39 ∧ within 0x4C 0x68 0x4C ∧ within 0x4C 0x68 0x68 := by
  unfold within; decide

/-- The bounds of the writable ranges, and their neighbours outside. -/
theorem test_meets_WriteEffectByAddress :
    State.reset.blk.busy = false ∧ (pending 0x10).blk.busy = true ∧
    within 0x00 0x19 0x00 ∧ within 0x00 0x19 0x19 ∧ within 0x44 0x4B 0x44 ∧ within 0x44 0x4B 0x4B ∧
    ((0x1A : Byte) ≠ 0x40 ∧ ¬ within 0x00 0x19 0x1A ∧ ¬ within 0x44 0x4B 0x1A) ∧
    ((0x4C : Byte) ≠ 0x40 ∧ ¬ within 0x00 0x19 0x4C ∧ ¬ within 0x44 0x4B 0x4C) ∧
    ((0x43 : Byte) ≠ 0x40 ∧ ¬ within 0x00 0x19 0x43 ∧ ¬ within 0x44 0x4B 0x43) := by unfold within; decide
theorem test_meets_StoreChangesOneByte :
    State.reset.blk.busy = false ∧ within 0x00 0x19 0x19 ∧ within 0x44 0x4B 0x44 := by unfold within; decide
theorem test_meets_StoreIsIdempotent :
    State.reset.blk.busy = false ∧ within 0x00 0x19 0x00 ∧ within 0x44 0x4B 0x4B := by unfold within; decide
theorem test_meets_BusyWriteIsDropped :
    (pending 0x10).blk.busy = true ∧ within 0x00 0x19 0x19 ∧ within 0x44 0x4B 0x44 ∧
    (¬ within 0x00 0x19 0x4C ∧ ¬ within 0x44 0x4B 0x4C) := by unfold within; decide
theorem test_meets_BusyWriteIsDropped_commit : ∃ u, exec .decode (pending 0x10) = .next u := ⟨_, rfl⟩

/-- Each class of command byte at its bounds, and the digest range at 26 and 27. -/
theorem test_meets_IssueCommandOutcomes :
    (State.reset.blk.busy = false ∧ 5 ≤ (0x50 : Byte).toNat / 16 ∧ 5 ≤ (0xFF : Byte).toNat / 16 ∧
      ¬ 5 ≤ (0x4F : Byte).toNat / 16) ∧
    (within 0x01 0x0F 0x01 ∧ within 0x01 0x0F 0x0F ∧ within 0x11 0x1F 0x11 ∧ within 0x11 0x1F 0x1F ∧
      within 0x22 0x2F 0x22 ∧ within 0x22 0x2F 0x2F ∧ within 0x41 0x4F 0x41 ∧ within 0x41 0x4F 0x4F) ∧
    ((withRange 0x02 0x19).blk.busy = false ∧
      26 < (withRange 0x02 0x19).blk.doff.toNat + (withRange 0x02 0x19).blk.dlen.toNat) ∧
    ((withRange 0x02 0x18).blk.busy = false ∧
      (withRange 0x02 0x18).blk.doff.toNat + (withRange 0x02 0x18).blk.dlen.toNat ≤ 26) ∧
    (within 0x30 0x3F 0x30 ∧ within 0x30 0x3F 0x3F) := by unfold within; decide
theorem test_meets_RejectionEffect :
    State.reset.blk.busy = false ∧ within 0x50 0xFF 0x50 ∧ within 0x50 0xFF 0xFF ∧ within 0x01 0x0F 0x01 ∧
    26 < (withRange 0xFF 0x1B).blk.doff.toNat + (withRange 0xFF 0x1B).blk.dlen.toNat := by unfold within; decide
theorem test_meets_RangeCheckIsExact :
    (withRange 0x1A 0x01).blk.busy = false ∧
    26 < (withRange 0x1A 0x01).blk.doff.toNat + (withRange 0x1A 0x01).blk.dlen.toNat ∧
    (withRange 0x1A 0x00).blk.doff.toNat + (withRange 0x1A 0x00).blk.dlen.toNat ≤ 26 := by decide

theorem test_meets_NopOnlyCompletes :
    memRead 0x41 (State.reset.withBlk { Block.reset with done := true, err := true, errcode := 1 }).blk = 0x60 ∧
    within 0x01 0x0F 0x0F := by unfold within; decide
theorem test_meets_ClearZeroesResults :
    within 0x4C 0x68 0x4C ∧ within 0x4C 0x68 0x68 ∧ within 0x41 0x4F 0x41 ∧ within 0x41 0x4F 0x4F ∧
    State.reset.blk.busy = false ∧ (pending 0x40).blk.busy = true ∧
    memRead 0x41 (State.reset.withBlk
      { Block.reset with done := true, complete := true, valid := true, code := 1 }).blk = 0x59 := by
  unfold within; decide

/-- The digest range at its two ends, an empty range, and a zero key. -/
theorem test_meets_DigestWritesDsum :
    (withRange 0x00 0x1A).blk.doff.toNat + (withRange 0x00 0x1A).blk.dlen.toNat ≤ 26 ∧
    ((withRange 0x1A 0x00).blk.doff.toNat + (withRange 0x1A 0x00).blk.dlen.toNat ≤ 26 ∧
      (withRange 0x1A 0x00).blk.dlen = 0) ∧
    (State.reset.withBlk { Block.reset with key := 0 }).blk.key = 0 := by decide
theorem test_meets_DigestOutOfRangeStops :
    26 < (withRange 0x00 0x1B).blk.doff.toNat + (withRange 0x00 0x1B).blk.dlen.toNat := by decide

theorem test_meets_LstepAdvancesLstate :
    (State.reset.withBlk { Block.reset with lstate := 0 }).blk.lstate = 0 ∧
    (State.reset.withBlk { Block.reset with gen := 0 }).blk.gen = 0 ∧
    ((State.reset.withBlk { Block.reset with lstate := 1 }).blk.lstate = 1 ∧ State.reset.blk.gen = 0x8810) ∧
    State.reset.blk.lstate = keyStream State.reset.blk.gen State.reset.blk.key 0 ∧ State.reset.blk.lstate = 0xBA95 ∧
    (State.reset.blk.busy = false ∧ (pending 0x30).blk.busy = true) := by decide

/-- A payload for each outcome of DECODE: INVALID, OK, DIG_ERR. -/
theorem test_meets_DecodeEffect :
    State.reset.blk.payload[21] = 0x00 ∧
    (frameV1[21] ≠ 0x00 ∧ checksumField frameV1 ^^^ frameDigest frameV1 = 0x6DF1) ∧
    (frameV1Bad[21] ≠ 0x00 ∧ checksumField frameV1Bad ^^^ frameDigest frameV1Bad ≠ 0x6DF1) := by decide +kernel
theorem test_meets_DecodeEffect_issue :
    State.reset.blk.busy = false ∧ (pending 0x10).blk.busy = true ∧ within 0x11 0x1F 0x11 ∧ within 0x11 0x1F 0x1F ∧
    (withPayload frameV1).blk.payload = frameV1 := by unfold within; decide
/-- The same in the terms of DecodeEffect, DecodeStatusOrder, FailedDecodeKeepsRecord and
DecodeExposesDigestAndChecksum. -/
theorem test_meets_decode_codes :
    after (exec .decode State.reset) (·.blk.code) = some 0 ∧
    after (exec .decode (withPayload frameV1)) (·.blk.code) = some 1 ∧
    after (exec .decode (withPayload frameV1Bad)) (·.blk.code) = some 4 := by decide +kernel
theorem test_meets_DecodeDependsOnPayloadAlone :
    ((withPayload frameV1).withBlk { Block.reset with payload := frameV1, key := 0, dsum := 7 }).blk.payload =
      (withPayload frameV1).blk.payload := rfl
theorem test_meets_FormatDigestEqualsDecodeDigest :
    (withPayload frameV1).blk.doff = 2 ∧ (withPayload frameV1).blk.dlen = 23 ∧
    (withPayload frameV1).blk.gen = 0x8810 ∧ (withPayload frameV1).blk.key = 0xBA95 ∧
    (withPayload frameV1).blk.payload[21] ≠ 0x00 := by decide

theorem test_meets_LfsrStepShiftsThenXors :
    (0xBA95 : Word16).getLsbD 0 = true ∧ (0xD55A : Word16).getLsbD 0 = false := by decide
theorem test_meets_SerialDigestEqualsXorTree : 2 ≤ [(0x90 : Byte), 0x6F].length := by decide
theorem test_meets_DigestIsLinearInData : [(0x90 : Byte), 0x6F].length = [(0x17 : Byte), 0x50].length := by decide

/-- The bounds of the temperature clauses. -/
theorem test_meets_TemperatureRuleAndRange_digits : bcd [9, 9, 9] = 999 ∧ (9 : Nibble).toNat ≤ 9 := by decide
theorem test_meets_TemperatureRuleAndRange :
    (600 ≤ 1665 ∧ 600 ≤ 600) ∧ (600 < 601 ∧ 601 ≤ 999) ∧ (600 < 999 ∧ 999 ≤ 999) ∧ (1000 ≤ 1000 ∧ 1665 ≤ 1665) := by
  decide

theorem test_meets_BuiltFrameRoundTrips :
    (withPayload frameV1).blk.payload = validFrame frameV1Dw ∧ frameV1Dw[21] ≠ 0xAA := by decide +kernel
theorem test_meets_SingleBitErrorIsDetected :
    (withPayload frameV1Bad).blk.payload =
      (withPayload frameV1).blk.payload.set 24 ((withPayload frameV1).blk.payload[24] ^^^ ((1 : Byte) <<< 7)) ∧
    after (exec .decode (withPayload frameV1)) (·.blk.code) = some 1 := by decide +kernel

/-- Every command commits from its pending state. -/
theorem test_meets_CommandFrame :
    (∃ t, exec .nop (pending 0x00) = .next t) ∧ (∃ t, exec .decode (pending 0x10) = .next t) ∧
    (∃ t, exec (.digest .dw) (pending 0x21) = .next t) ∧ (∃ t, exec (.lstep 16) (pending 0x3F) = .next t) ∧
    (∃ t, exec .clear (pending 0x40) = .next t) := ⟨⟨_, rfl⟩, ⟨_, rfl⟩, ⟨_, rfl⟩, ⟨_, rfl⟩, ⟨_, rfl⟩⟩

/-- A step of the host that writes DOFF. -/
theorem test_meets_OnlyHostWritesChangeInputs :
    ∃ t, step (hostWord 0x14805 none State.reset) = .next t ∧ t.blk.doff = 0x05 := ⟨_, rfl, by decide⟩
/-- A step of the host while a command is pending. -/
theorem test_meets_PendingCommandIsFrozen :
    (turns [.host] (hostWord 0x14805 none (pending 0x10))).blk.busy = true ∧
    ∃ t, step (turns [.host] (hostWord 0x14805 none (pending 0x10))) = .next t ∧ t.blk.busy = true :=
  ⟨rfl, _, rfl, by decide⟩
/-- A commit of CLEAR that changes the record. -/
theorem test_meets_RecordWrittenByOkDecodeOrClear :
    ∃ t, step ((pending 0x40).withBlk
      { (pending 0x40).blk with record := { Record.zero with hum := 1 } }) = .next t ∧ t.blk.record.hum = 0 :=
  ⟨_, rfl, by decide⟩
/-- NOP issued while ERR is 1. -/
theorem test_meets_ErrClearedByAcceptanceOnly :
    ∃ t, step (hostWord 0x14000 none (State.reset.withBlk { Block.reset with err := true, errcode := 1 })) =
      .next t ∧ t.blk.err = false := ⟨_, rfl, by decide⟩
/-- BUSY rises, and falls. -/
theorem test_meets_BusyRisesByIssueFallsByCommit :
    (∃ t, step (hostWord 0x14010 none State.reset) = .next t ∧ t.blk.busy = true) ∧
    (∃ t, step (pending 0x10) = .next t ∧ t.blk.busy = false) := ⟨⟨_, rfl, by decide⟩, ⟨_, rfl, by decide⟩⟩

theorem test_meets_EngineStepRunsPendingCommand :
    (turns [.engine] (pending 0x3F)).sched = .engine :: [] ∧ (pending 0x3F).sched = [] ∧
    (pending 0x3F).blk.busy = true ∧ decodeCmd (pending 0x3F).blk.pend = .instr (.lstep 16) := by decide
/-- A write, an unnamed read and a named read. -/
theorem test_meets_HostStepRunsNextWord :
    (hostWord 0x14010 none State.reset).sched = [] ∧ (hostWord 0x14010 none State.reset).blk.busy = false ∧
    weField 0x14010 = true ∧ weField 0x04100 = false ∧
    (turns [.host] (hostWord 0x04100 (some { base := "st", part := .whole }) State.reset)).prog =
      [.xfer 0x04100 (some { base := "st", part := .whole })] := by decide
/-- A poll whose first read meets the condition, and one whose does not. -/
theorem test_meets_PollRepeatsUntilMatch :
    memRead 0x41 State.reset.blk &&& 0x80 = 0x00 ∧ memRead 0x41 (pending 0x10).blk &&& 0x80 ≠ 0x00 := by decide
theorem test_poll_repeats :
    after (step (turns [.host] { pending 0x10 with prog := [.poll 0x41 0x80 0x00] })) (·.prog) =
      some [.poll 0x41 0x80 0x00] := by decide
theorem test_meets_IdleEngineTurnChangesNothing :
    (turns [.engine] State.reset).sched = [.engine] ∧ (turns [.engine] State.reset).blk.busy = false := by decide
theorem test_meets_ResetEventSetsEveryRegister :
    (turns [.reset] (pending 0x10)).sched = .reset :: [] := by decide

theorem test_meets_StepKeepsInvariant :
    Inv (turns [.engine] (pending 0x10)) ∧ ∃ t, step (turns [.engine] (pending 0x10)) = .next t :=
  ⟨test_inv_of_pending_decode _, _, rfl⟩
theorem test_meets_InvariantStateNeverStops : Inv (turns [.host] (pending 0x10)) := test_inv_of_pending_decode _
theorem test_meets_PendingCommandCommitsOrIsReset :
    Inv (turns [.host, .engine] (pending 0x10)) ∧ (turns [.host, .engine] (pending 0x10)).blk.busy = true :=
  ⟨test_inv_of_pending_decode _, rfl⟩
theorem test_meets_ResultsIndependentOfLatency :
    Inv (turns [.host, .engine] (pending 0x10)) ∧ (turns [.host, .engine] (pending 0x10)).blk.busy = true ∧
    (turns [.host, .engine] (pending 0x10)).sched = List.replicate 1 .host ++ .engine :: [] :=
  ⟨test_inv_of_pending_decode _, rfl, rfl⟩

/-- The idle reset machine with a program, and turns to come. -/
theorem test_inv_of_reset_program (ps : List HostOp) (ts : List Turn) :
    Inv (turns ts { State.reset with prog := ps }) :=
  { pending := fun h => absurd h (by change ¬ (Block.reset.busy = true); decide)
    status := test_statusInv_of_reset
    record := test_recordInv_of_pending_decode
    valid_written := fun h => absurd h (by change ¬ (Block.reset.valid = true); decide) }

theorem test_meets_NamedReadBindsItsByte :
    (turns [.host] (hostWord (busWord false 0x41 0x00) (some { base := "st", part := .whole }) State.reset)).sched =
      .host :: [] ∧
    (hostWord (busWord false 0x41 0x00) (some { base := "st", part := .whole }) State.reset).prog =
      .xfer (busWord false 0x41 0x00) (some { base := "st", part := .whole }) :: [] := ⟨rfl, rfl⟩
/-- The highest address of each form, with turns of engine and reset between the reads, and with none. -/
theorem test_meets_Rd16FormsWord :
    (∃ ops, expand (.rd16 0xFE "n") = some ops ∧
      Inv (turns [.host, .engine, .reset, .host] { State.reset with prog := ops ++ [] })) ∧
    (∀ m ∈ [Turn.engine, .reset], m ≠ .host) ∧
    (∃ ops, expand (.rd16 0x60 "t") = some ops ∧ Inv (turns [.host, .host] { State.reset with prog := ops ++ [] })) :=
  ⟨⟨_, rfl, test_inv_of_reset_program _ _⟩, by decide, ⟨_, rfl, test_inv_of_reset_program _ _⟩⟩
theorem test_meets_Rd24FormsWord :
    (∃ ops, expand (.rd24 0xFD "n") = some ops ∧
      Inv (turns [.host, .engine, .host, .reset, .host] { State.reset with prog := ops ++ [] })) ∧
    (∀ m ∈ [Turn.engine], m ≠ .host) ∧ (∀ m ∈ [Turn.reset], m ≠ .host) ∧
    (∃ ops, expand (.rd24 0x62 "lux") = some ops ∧
      Inv (turns [.host, .host, .host] { State.reset with prog := ops ++ [] })) :=
  ⟨⟨_, rfl, test_inv_of_reset_program _ _⟩, by decide, by decide, ⟨_, rfl, test_inv_of_reset_program _ _⟩⟩

theorem test_meets_CommandSpellings :
    mnemonicByte (.LSTEP 1) = some 0x30 ∧ mnemonicByte (.LSTEP 16) = some 0x3F ∧ mnemonicByte (.LSTEP 0) = none := by
  decide
theorem test_meets_PseudoInstructionExpansions :
    mnemonicByte .DECODE = some 0x10 ∧ mnemonicByte (.LSTEP 0) = none ∧ (0xFE : Byte).toNat < 0xFF ∧ (0xFD : Byte).toNat < 0xFE ∧
    0xFE ≤ (0xFE : Byte).toNat := by decide

end Sys2Proof.Tests
end

section
/-! SUPPORT. The family of spec/10_state.md: what a step can do to the block, and the statements about the status
registers, the record and the invariant that follow from it. -/

namespace Sys2Proof.Safety

open Sys2Proof.Machine

/-! ### What a step can do to the block -/

/-- The block a step from `s` can leave, one case per kind of event (R13, R66, R122, R125, R242, R270). -/
inductive BlockStep (s : State) : Block → Prop
  /-- A read, an ignored write, or a turn that passes. -/
  | stay : BlockStep s s.blk
  | reset (hm : mover s = .reset) : BlockStep s Block.reset
  | commit (hm : mover s = .engine) (hb : s.blk.busy = true) (i : Instr) (hi : decodeCmd s.blk.pend = .instr i) :
      BlockStep s (finish (commandBlock i s.blk))
  | drop (hm : mover s = .host) (hb : s.blk.busy = true) : BlockStep s (dropBusyWrite s.blk)
  | reject (hm : mover s = .host) (hb : s.blk.busy = false) (c : ErrCause) (hc : c ≠ .busyWrite) :
      BlockStep s (cmdError c s.blk)
  | issue (hm : mover s = .host) (hb : s.blk.busy = false) (v : Byte) (dest : Option HostName) (ps : List HostOp)
      (hp : s.prog = .xfer (busWord true 0x40 v) dest :: ps) (i : Instr) (hi : decodeCmd v = .instr i)
      (ha : acceptable i s.blk = true) : BlockStep s (accept v s.blk)
  | store (hm : mover s = .host) (hb : s.blk.busy = false) (v : Byte) (p : Port) : BlockStep s (storePort v s.blk p)

/-- Every step is one of those events. -/
theorem blockStep_of_step {s t : State} (h : step s = .next t) : BlockStep s t.blk := by
  obtain ⟨hm, ht⟩ | ⟨-, -, ht⟩ | ⟨hm, hb, i, hi, ht⟩ | ⟨hm, -, hw⟩ := step_cases s t h
  · exact ht ▸ .reset hm
  · exact ht ▸ .stay
  · exact ht ▸ .commit hm hb i hi
  · obtain ht | ⟨a, v, dest, ps, hp, ht⟩ := hw
    · exact ht ▸ .stay
    rw [ht]
    obtain he | ⟨hb, he⟩ | ⟨hb, -, c, he, hc⟩ | ⟨hb, rfl, ⟨i, hi, ha⟩, he⟩ | ⟨hb, -, -, he⟩ :=
      memWrite_cases a v s.blk
    · exact he.symm ▸ .stay
    · exact he.symm ▸ .drop hm hb
    · exact he.symm ▸ .reject hm hb c hc
    · exact he.symm ▸ .issue hm hb v dest ps hp i hi ha
    · exact he.symm ▸ .store hm hb v (portOf a)

/-- What a command does to the record and the decode outcome: it keeps both (NOP, DIGEST, LSTEP), or it is a DECODE
that fails and keeps the record, or an OK DECODE, or CLEAR (R40, R131, R233, R234). -/
theorem commandBlock_outcome (i : Instr) (b : Block) :
    ((commandBlock i b).record = b.record ∧ (commandBlock i b).code = b.code ∧
      (commandBlock i b).valid = b.valid ∧ (commandBlock i b).complete = b.complete) ∨
    (i = .decode ∧ (commandBlock i b).record = b.record ∧
      ((commandBlock i b).code = 0 ∨ (commandBlock i b).code = 4) ∧
      (commandBlock i b).valid = false ∧ (commandBlock i b).complete = false) ∨
    (i = .decode ∧ (commandBlock i b).record = recordOf b.payload ∧ (commandBlock i b).code = 1 ∧
      (commandBlock i b).valid = true ∧ (commandBlock i b).complete = true) ∨
    (i = .clear ∧ (commandBlock i b).record = Record.zero ∧ (commandBlock i b).code = 0 ∧
      (commandBlock i b).valid = false ∧ (commandBlock i b).complete = false) := by
  cases i with
  | decode =>
    obtain ⟨-, he⟩ | ⟨-, -, he⟩ | ⟨-, -, he⟩ := decodeBlock_cases b
    · exact .inr (.inl (by simp [commandBlock, he, DecodeStatus.code]))
    · exact .inr (.inl (by simp [commandBlock, he, DecodeStatus.code]))
    · exact .inr (.inr (.inl (by simp [commandBlock, he, DecodeStatus.code])))
  | clear => exact .inr (.inr (.inr ⟨rfl, rfl, rfl, rfl, rfl⟩))
  | nop | digest v | lstep n | rd a | wr a d => exact .inl ⟨rfl, rfl, rfl, rfl⟩

/-- DECODE and CLEAR have one command byte each (R91, R92). -/
theorem decodeCmd_decode_or_clear : ∀ v : Byte,
    (decodeCmd v = .instr .decode → v = 0x10) ∧ (decodeCmd v = .instr .clear → v = 0x40) := by
  decide

/-! ### The record's legal values -/

theorem recordInv_zero : RecordInv Record.zero := by constructor <;> decide

/-- A value that fits its register is read back. -/
theorem toNat_ofNat_le {w n m : Nat} (h : n ≤ m) : (BitVec.ofNat w n).toNat ≤ m :=
  (BitVec.toNat_ofNat n w ▸ Nat.mod_le n (2 ^ w)).trans h

theorem toNat_nibble_le (x : Nibble) : (x.setWidth 8).toNat ≤ 0x0F := by
  rw [BitVec.toNat_setWidth]
  omega

theorem toNat_rawTemp (p : Payload) : (BitVec.ofNat 16 (rawTemp p)).toNat = rawTemp p := by
  rw [BitVec.toNat_ofNat, Nat.mod_eq_of_lt]
  have := rawTemp_le p
  omega

/-- `BATT_OK` of SINFO against FLAGS, both taken from byte 15 (R206, R207). -/
theorem battOkOf_packSinfo_iff (a b : Byte) :
    battOkOf (packSinfo a b) = true ↔ (lo4 b).setWidth 8 &&& 0x06 ≠ 0x06 := by
  obtain ⟨-, -, -, hok⟩ := packSinfo_fields a b
  rw [hok, lo4_setWidth, BitVec.and_assoc]
  simp

/-- Every frame's record has legal values, whatever the payload: each converter's range fits (R200 to R218). -/
theorem recordInv_recordOf (p : Payload) : RecordInv (recordOf p) where
  stype_le := toNat_nibble_le _
  sinfo_le := (packSinfo_fields _ _).1
  flags_le := toNat_nibble_le _
  fvalid_written := .inr rfl
  traw_le := toNat_ofNat_le (rawTemp_le p)
  temp_of_traw := by
    simp only [recordOf, toNat_rawTemp]
    exact tempWord_toInt _ (rawTemp_le p)
  temp_range := by
    have ht := tempWord_toInt _ (rawTemp_le p)
    have hr := rawTemp_le p
    simp only [recordOf]
    split at ht <;> omega
  hum_le := toNat_ofNat_le (bcd_two_le _ _)
  wdir_le := toNat_ofNat_le (bcd_three_le _ _ _)
  wgust_le := toNat_ofNat_le (bcd_three_le _ _ _)
  wavg_le := toNat_ofNat_le (bcd_three_le _ _ _)
  rain_le := toNat_ofNat_le (bcd_six_le _ _ _ _ _ _)
  lux_le := toNat_ofNat_le (bcd_six_le _ _ _ _ _ _)
  uv_le := toNat_ofNat_le (bcd_three_le _ _ _)
  unwritten_zero := fun h => absurd h (show ¬ fvalidAll = 0x00 by decide)
  batt_of_flags := fun _ => battOkOf_packSinfo_iff _ _

/-! ### The invariant, event by event -/

theorem statusInv_reset : StatusInv Block.reset := by constructor <;> decide

/-- A commit keeps the outcome fields or writes a consistent outcome, keeps ERR and ERRCODE, and ends BUSY (R125). -/
theorem statusInv_commit (i : Instr) {b : Block} (hs : StatusInv b) : StatusInv (finish (commandBlock i b)) := by
  have outcome : (commandBlock i b).complete = (commandBlock i b).valid ∧
      ((commandBlock i b).valid = true ↔ (commandBlock i b).code = 1) ∧
      ((commandBlock i b).code = 0 ∨ (commandBlock i b).code = 1 ∨ (commandBlock i b).code = 4) := by
    obtain ⟨-, hc, hv, hm⟩ | ⟨-, -, hc, hv, hm⟩ | ⟨-, -, hc, hv, hm⟩ | ⟨-, -, hc, hv, hm⟩ := commandBlock_outcome i b
    · rw [hc, hv, hm]
      exact ⟨hs.complete_eq_valid, hs.valid_iff_ok, hs.code_written⟩
    · obtain hc | hc := hc <;> simp [hc, hv, hm]
    · simp [hc, hv, hm]
    · simp [hc, hv, hm]
  obtain ⟨complete_eq_valid, valid_iff_ok, code_written⟩ := outcome
  obtain ⟨-, -, -, he, hec, -⟩ := commandBlock_frame i b
  exact {
    complete_eq_valid, valid_iff_ok, code_written
    err_iff_errcode := by simpa only [finish_err, finish_errcode, he, hec] using hs.err_iff_errcode
    errcode_written := by simpa only [finish_errcode, hec] using hs.errcode_written
    busy_errcode := by simp
    busy_not_done := by simp }

/-- The status registers stay consistent. A store is to an input register, which no clause reads. -/
theorem BlockStep.statusInv {s : State} {c : Block} (h : BlockStep s c) (hs : StatusInv s.blk) : StatusInv c := by
  cases h with
  | stay => exact hs
  | reset => exact statusInv_reset
  | commit _ _ i => exact statusInv_commit i hs
  | drop =>
    exact { hs with
      err_iff_errcode := by simp
      errcode_written := by simp
      busy_errcode := fun _ => .inr rfl }
  | reject _ hb e =>
    exact { hs with
      err_iff_errcode := by cases e <;> simp [errCode]
      errcode_written := by cases e <;> simp [errCode]
      busy_errcode := by simp [hb]
      busy_not_done := by simp [hb] }
  | issue =>
    exact { hs with
      err_iff_errcode := by simp
      errcode_written := by simp
      busy_errcode := fun _ => .inl rfl
      busy_not_done := fun _ => rfl }
  | store _ _ v p => cases p <;> exact { hs with }

/-- The acceptance check reads DOFF and DLEN alone (R243). -/
theorem acceptable_congr (i : Instr) {b c : Block} (ho : c.doff = b.doff) (hl : c.dlen = b.dlen) :
    acceptable i c = acceptable i b := by
  cases i <;> simp [acceptable, digestInRange, ho, hl]

/-- A command is pending only after its acceptance, and while it is, no event changes PEND or the digest's range. -/
theorem BlockStep.pendingAccepted {s : State} {c : Block} (h : BlockStep s c) (hs : PendingAccepted s.blk) :
    PendingAccepted c := by
  intro hc
  cases h with
  | stay => exact hs hc
  | reset => cases hc
  | commit => cases hc
  | drop _ hb =>
    obtain ⟨i, hi, ha⟩ := hs hb
    exact ⟨i, hi, (acceptable_congr i rfl rfl).trans ha⟩
  | reject _ hb => simp [hb] at hc
  | issue _ _ _ _ _ _ i hi ha => exact ⟨i, hi, (acceptable_congr i rfl rfl).trans ha⟩
  | store _ hb v p =>
    obtain ⟨hbusy, -⟩ := storePort_frame v s.blk p
    simp [hbusy, hb] at hc

/-- The record after a step: the old one, and then VALID is not set; zero, and VALID cleared; or the frame's (R40). -/
theorem BlockStep.record_cases {s : State} {c : Block} (h : BlockStep s c) :
    (c.record = s.blk.record ∧ (c.valid = true → s.blk.valid = true)) ∨
    (c.record = Record.zero ∧ c.valid = false) ∨ c.record = recordOf s.blk.payload := by
  cases h with
  | stay | drop | reject | issue => exact .inl ⟨rfl, id⟩
  | reset => exact .inr (.inl ⟨rfl, rfl⟩)
  | store _ _ v p =>
    obtain ⟨-, -, -, -, hv, -, -, -, -, hr, -⟩ := storePort_frame v s.blk p
    exact .inl ⟨hr, fun h => hv ▸ h⟩
  | commit _ _ i =>
    obtain ⟨hr, -, hv, -⟩ | ⟨-, hr, -, hv, -⟩ | ⟨-, hr, -⟩ | ⟨-, hr, -, hv, -⟩ := commandBlock_outcome i s.blk
    · exact .inl ⟨hr, fun h => hv ▸ h⟩
    · exact .inl ⟨hr, by simp [hv]⟩
    · exact .inr (.inr hr)
    · exact .inr (.inl ⟨hr, hv⟩)

/-- Settles O50: each event keeps each clause of the invariant; the record's clauses rest on the ranges of the
converters. -/
theorem stepKeepsInvariant : Obligations.StepKeepsInvariant := by
  intro s t hs h
  have hstep := blockStep_of_step h
  obtain ⟨record, valid_written⟩ :
      RecordInv t.blk.record ∧ (t.blk.valid = true → t.blk.record.fvalid = 0xFF) := by
    obtain ⟨hr, hv⟩ | ⟨hr, hv⟩ | hr := hstep.record_cases <;> rw [hr]
    · exact ⟨hs.record, fun h => hs.valid_written (hv h)⟩
    · exact ⟨recordInv_zero, by simp [hv]⟩
    · exact ⟨recordInv_recordOf _, fun _ => rfl⟩
  exact {
    pending := hstep.pendingAccepted hs.pending
    status := hstep.statusInv hs.status
    record, valid_written }

/-- Settles O49: nothing is pending, no outcome is set, and the record is zero. -/
theorem resetMeetsInvariant : Obligations.ResetMeetsInvariant :=
  { pending := fun h => nomatch h
    status := statusInv_reset
    record := recordInv_zero
    valid_written := fun h => nomatch h }

/-! ### Who writes the record, ERR and BUSY -/

/-- Settles O40: of all events only a reset and a commit touch the record, and of the commands only an OK DECODE and
CLEAR. -/
theorem recordWrittenByOkDecodeOrClear : Obligations.RecordWrittenByOkDecodeOrClear := by
  intro s t h
  have hstep := blockStep_of_step h
  generalize t.blk = c at hstep ⊢
  cases hstep with
  | stay | drop | reject | issue => exact .inl rfl
  | reset hm => exact .inr (.inl hm)
  | store _ _ v p =>
    obtain ⟨-, -, -, -, -, -, -, -, -, hr, -⟩ := storePort_frame v s.blk p
    exact .inl hr
  | commit hm hb i hi =>
    obtain ⟨hr, -⟩ | ⟨-, hr, -⟩ | ⟨rfl, -, hc, -⟩ | ⟨rfl, hr, -⟩ := commandBlock_outcome i s.blk
    · exact .inl hr
    · exact .inl hr
    · exact .inr (.inr ⟨hm, hb, .inl ⟨(decodeCmd_decode_or_clear _).1 hi, hc⟩⟩)
    · exact .inr (.inr ⟨hm, hb, .inr ⟨(decodeCmd_decode_or_clear _).2 hi, hr⟩⟩)

/-- Settles O41: every event but a reset and an acceptance keeps ERR or sets it. -/
theorem errClearedByAcceptanceOnly : Obligations.ErrClearedByAcceptanceOnly := by
  intro s t h hset hclear
  have hstep := blockStep_of_step h
  generalize t.blk = c at hstep hclear ⊢
  cases hstep with
  | reset hm => exact .inl hm
  | issue hm hb => exact .inr ⟨hm, hb, rfl, rfl⟩
  | stay => simp [hset] at hclear
  | drop | reject => simp at hclear
  | commit _ _ i =>
    obtain ⟨-, -, -, he, -⟩ := commandBlock_frame i s.blk
    simp [he, hset] at hclear
  | store _ _ v p =>
    obtain ⟨-, -, he, -⟩ := storePort_frame v s.blk p
    simp [he, hset] at hclear

/-- An event that raises BUSY is an acceptance (R31, R122). -/
theorem BlockStep.busy_rises {s : State} {c : Block} (h : BlockStep s c) (h0 : s.blk.busy = false)
    (h1 : c.busy = true) : mover s = .host ∧
      ∃ v dest ps, s.prog = .xfer (busWord true 0x40 v) dest :: ps ∧ c = accept v s.blk := by
  cases h with
  | issue hm _ v dest ps hp => exact ⟨hm, v, dest, ps, hp, rfl⟩
  | stay => simp [h0] at h1
  | reset | commit => cases h1
  | drop _ hb => simp [h0] at hb
  | reject => simp [h0] at h1
  | store _ _ v p =>
    obtain ⟨hb, -⟩ := storePort_frame v s.blk p
    simp [hb, h0] at h1

/-- An event that ends BUSY is a reset or a commit (R31, R125). -/
theorem BlockStep.busy_falls {s : State} {c : Block} (h : BlockStep s c) (h1 : s.blk.busy = true)
    (h0 : c.busy = false) : mover s = .reset ∨
      (mover s = .engine ∧ ∃ i, c = finish (commandBlock i s.blk)) := by
  cases h with
  | reset hm => exact .inl hm
  | commit hm _ i => exact .inr ⟨hm, i, rfl⟩
  | stay | drop => simp [h1] at h0
  | issue => cases h0
  | reject _ hb | store _ hb => simp [h1] at hb

/-- Settles O42: BUSY rises by an acceptance, whose registers are given, and falls by a reset or a commit, which keeps
ERR and ERRCODE. -/
theorem busyRisesByIssueFallsByCommit : Obligations.BusyRisesByIssueFallsByCommit := by
  intro s t h
  have hstep := blockStep_of_step h
  constructor
  · intro h0 h1
    obtain ⟨hm, v, dest, ps, hp, ht⟩ := hstep.busy_rises h0 h1
    exact ⟨hm, v, dest, ps, hp, by simp [ht]⟩
  · intro h1 h0
    obtain hm | ⟨hm, i, ht⟩ := hstep.busy_falls h1 h0
    · exact .inl hm
    · obtain ⟨-, -, -, he, hec, -⟩ := commandBlock_frame i s.blk
      exact .inr ⟨hm, by simp [ht, he, hec]⟩

/-! ### The reset state -/

/-- A DECODE of a payload whose byte 21 is zero answers INVALID and writes the status alone (R192, R233). -/
theorem exec_decode_of_insane (s : State) (h : s.blk.payload[21] = 0x00) :
    exec .decode s = .next (s.withBlk (finish (setOutcome .invalid false s.blk))) := by
  obtain ⟨-, he⟩ | ⟨hne, -⟩ | ⟨hne, -⟩ := decodeBlock_cases s.blk
  · rw [exec_acceptable .decode s rfl rfl, commandBlock, he]
  · exact absurd h hne
  · exact absurd h hne

/-- Settles O48: the map is finite, and is read address by address. -/
theorem resetStateReadsAsStated : Obligations.ResetStateReadsAsStated :=
  ⟨by decide, rfl, _, exec_decode_of_insane State.reset (by decide), by decide⟩

end Sys2Proof.Safety
end

section
/-! SUPPORT. The family of spec/20_memory.md: what RD and WR do, address by address, and the statements about the map,
the store of one byte, and the writes that do nothing. -/

namespace Sys2Proof.Machine

open Sys2Proof.Safety

/-! ### Addresses -/

/-- The command port is none of the registers a write stores to (R66). -/
theorem ne_cmdAddr_of_writable {a : Byte} (hw : writable a = true) : a ≠ 0x40 := by
  rintro rfl
  exact absurd hw (by decide)

/-- Read-only and reserved addresses are neither the command port nor writable (R62, R67). -/
theorem not_writable_of_readOnly_or_reserved {a : Byte}
    (h : within 0x20 0x39 a ∨ a = 0x41 ∨ a = 0x42 ∨ within 0x4C 0x68 a ∨ within 0x1A 0x1F a ∨ within 0x3A 0x3F a ∨
      a = 0x43 ∨ within 0x69 0xFF a) : a ≠ 0x40 ∧ writable a = false := by
  have outside : a ≠ 0x40 ∧ ¬ within 0x00 0x19 a ∧ ¬ within 0x44 0x4B a := by
    simp only [within] at h ⊢
    bv_omega
  obtain ⟨hcmd, hpayload, hcontrol⟩ := outside
  exact ⟨hcmd, writable_false a hpayload hcontrol⟩

theorem portOf_ne_reserved_of_writable : ∀ a : Byte, writable a = true → portOf a ≠ .reserved := by decide

/-- The window lies 0x20 above the payload (R61). -/
theorem payload_addr_add (i : Fin 26) : BitVec.ofNat 8 i + 0x20 = (BitVec.ofNat 8 (0x20 + i) : Byte) := by
  rw [BitVec.ofNat_add, BitVec.add_comm]
  rfl

/-- The payload addresses are the 26 offsets (R61). -/
theorem within_payload_iff {a : Byte} : within 0x00 0x19 a ↔ ∃ i : Fin 26, a = BitVec.ofNat 8 i := by
  constructor
  · rintro ⟨-, h⟩
    exact ⟨⟨a.toNat, Nat.lt_succ_of_le h⟩, by simp⟩
  · rintro ⟨i, rfl⟩
    exact ⟨Nat.zero_le _, (Nat.mod_le _ _).trans (Nat.le_of_lt_succ i.isLt)⟩

/-- The window shows the payload byte 0x20 below it, de-whitened (R150). -/
theorem memRead_window (b : Block) {a : Byte} (h : within 0x00 0x19 a) :
    memRead (a + 0x20) b = memRead a b ^^^ 0xAA := by
  obtain ⟨i, rfl⟩ := within_payload_iff.1 h
  rw [payload_addr_add, memRead_dw, memRead_payload]

/-! ### RD and WR, case by case -/

theorem exec_rd (a : Byte) (s : State) : exec (.rd a) s = .next { s with rdata := memRead a s.blk } := rfl

theorem exec_wr (a v : Byte) (s : State) : exec (.wr a v) s = .next (s.withBlk (memWrite a v s.blk)) := rfl

theorem exec_wr_cmd (v : Byte) (s : State) : exec (.wr 0x40 v) s = .next (s.withBlk (issueCommand v s.blk)) := by
  rw [exec_wr, memWrite_cmd]

theorem exec_wr_busy {a : Byte} (v : Byte) {s : State} (hb : s.blk.busy = true) (hw : writable a = true) :
    exec (.wr a v) s = .next (s.withBlk (dropBusyWrite s.blk)) := by
  rw [exec_wr, memWrite_busy a v s.blk hb, if_pos (.inr hw)]

theorem exec_wr_idle {a : Byte} (v : Byte) {s : State} (hb : s.blk.busy = false) (hw : writable a = true) :
    exec (.wr a v) s = .next (s.withBlk (storePort v s.blk (portOf a))) := by
  rw [exec_wr, memWrite_idle a v s.blk hb (ne_cmdAddr_of_writable hw) hw]

theorem exec_wr_ignored {a : Byte} (v : Byte) (s : State) (ha : a ≠ 0x40) (hw : writable a = false) :
    exec (.wr a v) s = .next s := by
  rw [exec_wr, memWrite_ignored a v s.blk ha hw, State.withBlk_self]

/-! ### The store of one byte -/

/-- The same byte of a register written twice holds the later value. -/
theorem setHalf_setHalf (h : Half) (w : Word16) (u v : Byte) : setHalf h (setHalf h w u) v = setHalf h w v := by
  cases h with
  | hi => exact congrArg (v ++ ·) (half_of_append .lo u (half .lo w))
  | lo => exact congrArg (· ++ v) (half_of_append .hi (half .hi w) u)

/-- Of two stores to one address the later counts. -/
theorem storePort_storePort (u v : Byte) (b : Block) (p : Port) :
    storePort v (storePort u b p) p = storePort v b p := by
  cases p with
  | payload i => simp [storePort]
  | gen h | key h | lstate h => simp [storePort, setHalf_setHalf]
  | _ => rfl

theorem memRead_storePort_self (v : Byte) (b : Block) {a : Byte} (hw : writable a = true) :
    memRead a (storePort v b (portOf a)) = v :=
  readPort_storePort_self v b a hw

/-- A store to `a` shows at no address but `a` and, for a payload byte, its place in the window (R66, R150). -/
theorem memRead_storePort_of_ne (v : Byte) (b : Block) {a x : Byte} (hw : writable a = true) (hx : x ≠ a)
    (hdw : within 0x00 0x19 a → x ≠ a + 0x20) : memRead x (storePort v b (portOf a)) = memRead x b := by
  apply readPort_storePort
  · intro hp
    obtain hr | hxa := portOf_injective x a hp
    · exact portOf_ne_reserved_of_writable a hw (hp ▸ hr)
    · exact hx hxa
  · intro i hi hxi
    have ha : a = BitVec.ofNat 8 i := by simpa [hi, portAddr, eq_comm] using portAddr_portOf a
    have hx' : x = BitVec.ofNat 8 (0x20 + i) := by simpa [hxi, portAddr, eq_comm] using portAddr_portOf x
    exact hdw (within_payload_iff.2 ⟨i, ha⟩) (by rw [ha, hx', payload_addr_add])

/-! ### The statements -/

/-- Settles O5: the map is read off `portOf` and `readPort`, address by address. -/
theorem readReturnsMapByte : Obligations.ReadReturnsMapByte := by
  intro s a
  refine ⟨exec_rd a s, ⟨memRead_payload s.blk, memRead_dw s.blk, ?_⟩, memRead_reserved s.blk a⟩
  rw [← low4_eq_and, ← low5_eq_and, ← low4_eq_and]
  and_intros <;> rfl

/-- Settles O7: a register's bytes, read from its addresses, are its halves or thirds. -/
theorem registersAreBigEndian : Obligations.RegistersAreBigEndian := by
  intro b
  have two (w : Word16) : w = half .hi w ++ half .lo w := (half_append w).symm
  have three (w : Word24) : w = third .b2 w ++ third .b1 w ++ third .b0 w := (third_append w).symm
  exact ⟨two b.gen, two b.key, two b.lstate, two b.dsum, two b.chk, two b.record.id, two b.record.wdir,
    two b.record.wgust, two b.record.wavg, three b.record.rain, two b.record.temp, three b.record.lux,
    two b.record.uv, two b.record.traw⟩

/-- Settles O8: the four cases of a write, and for a store while idle the register each address names. -/
theorem writeEffectByAddress : Obligations.WriteEffectByAddress := by
  intro s a v
  refine ⟨?command, fun hb ha => exec_wr_busy v hb ((writable_iff a).2 ha), fun hb => ⟨fun h => ?payload, ?registers⟩,
    fun hcmd hpayload hcontrol => exec_wr_ignored v s hcmd (writable_false a hpayload hcontrol)⟩
  case command =>
    rintro rfl
    exact exec_wr_cmd v s
  case payload =>
    have hw : writable a = true := (writable_iff a).2 (.inl ⟨Nat.zero_le _, Nat.le_of_lt_succ h⟩)
    rw [exec_wr_idle v hb hw, portOf_payload a h]
    rfl
  case registers =>
    and_intros <;> · rintro rfl; exact exec_wr_idle v hb rfl

/-- Settles O9: the store is to the one port the address names. -/
theorem storeChangesOneByte : Obligations.StoreChangesOneByte := by
  intro s a v hb ha
  have hw : writable a = true := (writable_iff a).2 ha
  obtain ⟨-, -, -, -, -, -, -, -, -, hrecord, hpend⟩ := storePort_frame v s.blk (portOf a)
  refine ⟨_, exec_wr_idle v hb hw, memRead_storePort_self v s.blk hw, fun hin => ?_,
    fun x hx hdw => memRead_storePort_of_ne v s.blk hw hx hdw, hpend, hrecord, rfl, rfl, rfl, rfl⟩
  rw [memRead_window _ hin, State.withBlk_blk, memRead_storePort_self v s.blk hw]

/-- Settles O10: the block is idle after the first store, and the second writes the byte already there. -/
theorem storeIsIdempotent : Obligations.StoreIsIdempotent := by
  intro s a v hb ha
  have hw : writable a = true := (writable_iff a).2 ha
  obtain ⟨hbusy, -⟩ := storePort_frame v s.blk (portOf a)
  refine ⟨_, exec_wr_idle v hb hw, ?_⟩
  rw [exec_wr_idle v (hbusy.trans hb) hw, State.withBlk_blk, storePort_storePort, State.withBlk_withBlk]

/-- Settles O11: such an address is neither CMD nor writable. -/
theorem readOnlyWritesAreIgnored : Obligations.ReadOnlyWritesAreIgnored := by
  intro s a v h
  obtain ⟨hcmd, hw⟩ := not_writable_of_readOnly_or_reserved h
  exact exec_wr_ignored v s hcmd hw

/-- Settles O6: the write is one of the ignored writes of R67. -/
theorem reservedAddressesReadZeroIgnoreWrites : Obligations.ReservedAddressesReadZeroIgnoreWrites := by
  intro s a v h
  refine ⟨?_, readOnlyWritesAreIgnored s a v (.inr (.inr (.inr (.inr h))))⟩
  rw [exec_rd, memRead_reserved s.blk a h]

end Sys2Proof.Machine
end

section
/-! SUPPORT. The family of spec/30_encoding.md: the two formats and their canonical words, the host program forms, and
what a run of a named read and of the multi-byte reads binds. -/

namespace Sys2Proof

open Sys2Proof.Safety

/-! ### Command bytes -/

/-- The step count of an LSTEP byte is its `ARG` plus one (R92). -/
theorem decodeCmd_lstep (arg : Nibble) : decodeCmd (cmdByte 0x3 arg) = .instr (.lstep (arg.toNat + 1)) := by
  simp [decodeCmd]

/-- `ARG` holds every legal step count, less one (R92, R101). -/
theorem toNat_lstepArg {n : Nat} (h : 1 ≤ n ∧ n ≤ 16) : (BitVec.ofNat 4 (n - 1)).toNat + 1 = n := by
  rw [BitVec.toNat_ofNat]
  omega

/-- A byte is known by its opcode and its `ARG` (R90). -/
theorem eq_cmdByte_of_opField {v : Byte} (op : Nibble) (h : (opField v).toNat = op.toNat) :
    v = cmdByte op (argField v) := by
  rw [← BitVec.eq_of_toNat_eq h, cmdByte_fields]

/-- A command without operand answers to `ARG` 0 alone (R92). -/
theorem noArg_eq_instr {arg : Nibble} {i j : Instr} (h : noArg arg i = .instr j) : arg = 0 ∧ i = j := by
  unfold noArg at h
  split at h
  · exact ⟨‹_›, Decoded.instr.inj h⟩
  · cases h

/-- A byte that answers as a command without operand is that command's encoding. -/
theorem encode_of_noArg {v : Byte} {i j : Instr} (op : Nibble) (hop : (opField v).toNat = op.toNat)
    (hi : encode i = .cmd (cmdByte op 0x0)) (hwf : i.WellFormed = true) (h : noArg (argField v) i = .instr j) :
    encode j = .cmd v ∧ j.WellFormed = true := by
  obtain ⟨ha, rfl⟩ := noArg_eq_instr h
  rw [eq_cmdByte_of_opField op hop, ha]
  exact ⟨hi, hwf⟩

/-- DIGEST answers to `ARG` 0 and 1, one for each view (R92). -/
theorem decodeDigest_eq_instr {arg : Nibble} {i : Instr} (h : decodeDigest arg = .instr i) :
    (arg = 0 ∧ i = .digest .raw) ∨ (arg = 1 ∧ i = .digest .dw) := by
  have view_bit : ∀ arg : Nibble, arg.extractLsb' 1 3 = 0 → arg = 0 ∨ arg = 1 := by decide
  unfold decodeDigest at h
  split at h
  case isTrue ha =>
    obtain rfl | rfl := view_bit arg ha
    · exact .inl ⟨rfl, (Decoded.instr.inj h).symm⟩
    · exact .inr ⟨rfl, (Decoded.instr.inj h).symm⟩
  case isFalse => cases h

/-- Each legal byte is the encoding of its command, and the command is well formed (R91, R92, R98). -/
theorem encode_of_decodeCmd {v : Byte} {i : Instr} (h : decodeCmd v = .instr i) :
    encode i = .cmd v ∧ i.WellFormed = true := by
  unfold decodeCmd at h
  split at h
  case h_1 hop => exact encode_of_noArg 0x0 hop rfl rfl h
  case h_2 hop => exact encode_of_noArg 0x1 hop rfl rfl h
  case h_3 hop =>
    rw [eq_cmdByte_of_opField 0x2 hop]
    obtain ⟨ha, rfl⟩ | ⟨ha, rfl⟩ := decodeDigest_eq_instr h <;> rw [ha] <;> exact ⟨rfl, rfl⟩
  case h_4 hop =>
    cases h
    constructor
    · rw [encode, Nat.add_sub_cancel, BitVec.ofNat_toNat, BitVec.setWidth_eq, ← eq_cmdByte_of_opField 0x3 hop]
    · exact decide_eq_true ⟨Nat.succ_pos _, (argField v).isLt⟩
  case h_5 hop => exact encode_of_noArg 0x4 hop rfl rfl h
  case h_6 => cases h

/-! ### Bus words -/

theorem decodeBus_write {t : BusWord} (h : weField t = true) : decodeBus t = .wr (addrField t) (dataField t) :=
  if_pos h

theorem decodeBus_read {t : BusWord} (h : weField t = false) : decodeBus t = .rd (addrField t) := by
  simp [decodeBus, h]

/-- Every bus word but a read with data is the encoding of its transaction (R99). -/
theorem encode_decodeBus {t : BusWord} (h : (Code.bus t).canonical = true) :
    encode (decodeBus t) = .bus t ∧ (decodeBus t).WellFormed = true := by
  cases hwe : weField t with
  | true =>
    have hword := busWord_fields t
    rw [hwe] at hword
    rw [decodeBus_write hwe, encode, hword]
    exact ⟨rfl, rfl⟩
  | false =>
    have hdata : dataField t = 0x00 := by simpa [Code.canonical, hwe] using h
    have hword := busWord_fields t
    rw [hwe, hdata] at hword
    rw [decodeBus_read hwe, encode, hword]
    exact ⟨rfl, rfl⟩

/-! ### The statements about the two formats -/

/-- Settles O1: the fields of the word an instruction is encoded to select its row and give its operands back. -/
theorem decodeUndoesEncode : Obligations.DecodeUndoesEncode := by
  intro i hwf
  cases i with
  | nop | decode | clear => rfl
  | digest view => cases view <;> rfl
  | lstep n => rw [encode, decode, decodeCmd_lstep, toNat_lstepArg (of_decide_eq_true hwf)]
  | rd a => simp [encode, decode, decodeBus]
  | wr a d => simp [encode, decode, decodeBus]

/-- Settles O2: a legal byte spells one command, and a canonical bus word one transaction. -/
theorem encodeUndoesDecode : Obligations.EncodeUndoesDecode := by
  intro c i hc h
  cases c with
  | cmd v => exact encode_of_decodeCmd h
  | bus t =>
    cases h
    exact encode_decodeBus hc

/-- Settles O3: each word is decoded as it stands. -/
theorem writtenOutWordsDecode : Obligations.WrittenOutWordsDecode := by
  unfold Obligations.WrittenOutWordsDecode
  decide

/-- The 16 LSTEP bytes (R98). -/
theorem decodeCmd_lstep_byte : ∀ k : Fin 16, decodeCmd (BitVec.ofNat 8 (0x30 + k)) = .instr (.lstep (k + 1)) := by
  decide

/-- The reserved-argument bytes are the only ones rejected as BAD_ARG (R95, R98). -/
theorem decodeCmd_eq_badArg_iff : ∀ v : Byte, decodeCmd v = .reject .badArg ↔
    within 0x01 0x0F v ∨ within 0x11 0x1F v ∨ within 0x22 0x2F v ∨ within 0x41 0x4F v := by
  simp only [within]
  decide

/-- The bytes from 0x50 on are the only ones rejected as ILLEGAL_OP (R94, R98). -/
theorem decodeCmd_eq_illegalOp_iff : ∀ v : Byte, decodeCmd v = .reject .illegalOp ↔ within 0x50 0xFF v := by
  simp only [within]
  decide

/-- Settles O4: the classes of bytes one by one, then the counts over all 256. -/
theorem commandByteCensus : Obligations.CommandByteCensus := by
  refine ⟨rfl, rfl, rfl, rfl, fun n h1 h16 => ?lstep, rfl, decodeCmd_eq_badArg_iff, decodeCmd_eq_illegalOp_iff,
    by decide +kernel, by decide +kernel, by decide +kernel⟩
  case lstep =>
    have := decodeCmd_lstep_byte ⟨n - 1, by omega⟩
    rwa [Nat.sub_add_cancel h1] at this

end Sys2Proof

namespace Sys2Proof.Machine

open Sys2Proof.Safety

/-! ### The assembler -/

/-- Settles O54: LSTEP is spelled for 1 to 16 and for no other count. -/
theorem commandSpellings : Obligations.CommandSpellings := by
  refine ⟨rfl, rfl, rfl, rfl, rfl, fun n h1 h16 => if_pos ⟨h1, h16⟩, fun n h => if_neg ?_⟩
  omega

theorem addrPlus_of_lt {a : Byte} {k : Nat} (h : a.toNat + k < 256) : addrPlus a k = some (a + BitVec.ofNat 8 k) :=
  if_pos h

theorem addrPlus_of_ge {a : Byte} {k : Nat} (h : 256 ≤ a.toNat + k) : addrPlus a k = none :=
  if_neg h.not_gt

/-- The `j`th write of a block write carries byte `j` to the `j`th address (R102). -/
theorem writesFrom_eq_mapIdx (k : Nat) (vs : List Byte) :
    writesFrom k vs = vs.mapIdx fun j v => wrOp (BitVec.ofNat 8 (k + j)) v := by
  induction vs generalizing k with
  | nil => rfl
  | cons v vs ih =>
    rw [writesFrom, ih, List.mapIdx_cons]
    simp [Nat.add_assoc, Nat.add_comm 1]

theorem expand_cmd (m : Mnemonic) : expand (.cmd m) = (mnemonicByte m).map fun v => [wrOp 0x40 v] := by
  cases h : mnemonicByte m <;> simp [expand, h]

theorem expand_wr16 {a : Byte} (v : Word16) (h : a.toNat < 0xFF) : expand (.wr16 a v) =
    some [wrOp a (v.extractLsb' 8 8), wrOp (a + 1) (v.extractLsb' 0 8)] := by
  simp [expand, addrPlus_of_lt (show a.toNat + 1 < 256 by omega)]

theorem expand_rd16 {a : Byte} (n : String) (h : a.toNat < 0xFF) : expand (.rd16 a n) =
    some [rdOp a (some { base := n, part := .hi }), rdOp (a + 1) (some { base := n, part := .lo })] := by
  simp [expand, addrPlus_of_lt (show a.toNat + 1 < 256 by omega)]

theorem expand_rd16_eq_none {a : Byte} (n : String) (h : 0xFF ≤ a.toNat) : expand (.rd16 a n) = none := by
  simp [expand, addrPlus_of_ge (show 256 ≤ a.toNat + 1 by omega)]

theorem expand_rd24 {a : Byte} (n : String) (h : a.toNat < 0xFE) : expand (.rd24 a n) =
    some [rdOp a (some { base := n, part := .b2 }), rdOp (a + 1) (some { base := n, part := .b1 }),
      rdOp (a + 2) (some { base := n, part := .b0 })] := by
  simp [expand, addrPlus_of_lt (show a.toNat + 1 < 256 by omega), addrPlus_of_lt (show a.toNat + 2 < 256 by omega)]

theorem expand_rd24_eq_none {a : Byte} (n : String) (h : 0xFE ≤ a.toNat) : expand (.rd24 a n) = none := by
  simp [expand, addrPlus_of_ge (show 256 ≤ a.toNat + 2 by omega)]

theorem expand_load26 (bytes : Vector Byte 26) :
    expand (.load26 bytes) = some (List.ofFn fun i : Fin 26 => wrOp (BitVec.ofNat 8 i) bytes[i]) := by
  rw [expand, writesFrom_eq_mapIdx]
  congr 1
  apply List.ext_getElem
  · rw [List.length_mapIdx, Vector.length_toList, List.length_ofFn]
  · intro i _ _
    rw [List.getElem_mapIdx, List.getElem_ofFn, Vector.getElem_toList, Nat.zero_add]
    rfl

/-- Settles O55: the table row by row; the last byte's address decides whether a multi-byte access is rejected. -/
theorem pseudoInstructionExpansions : Obligations.PseudoInstructionExpansions :=
  ⟨fun m v h => by rw [expand_cmd, h]; rfl, fun m h => by rw [expand_cmd, h]; rfl, rfl,
    fun a v => expand_wr16 v, fun v => rfl, fun a n => expand_rd16 n, fun n => rfl, fun a n => expand_rd24 n,
    fun a n => expand_rd24_eq_none n, expand_load26⟩

/-! ### The host's turn -/

/-- The host moves when the schedule names it, or when it names no turn and no command is pending (log entry 2). -/
theorem step_host {s : State} {ts : List Turn}
    (h : s.sched = .host :: ts ∨ (s.sched = [] ∧ ts = [] ∧ s.blk.busy = false)) :
    step s = hostTurn { s with sched := ts } := by
  obtain hs | ⟨hs, rfl, hb⟩ := h
  · simp [step, hs, takeTurn]
  · have hself : { s with sched := [] } = s := by rw [← hs]
    rw [hself, step, hs]
    simp [freeTurn, hb]

theorem hostTurn_xfer {s : State} {w : BusWord} {dest : Option HostName} {ps : List HostOp}
    (hp : s.prog = .xfer w dest :: ps) :
    hostTurn s = mapNext (bindRead (decodeBus w) dest) (exec (decodeBus w) { s with prog := ps }) := by
  rw [hostTurn, hp]

theorem hostTurn_poll {s : State} {a m v : Byte} {ps : List HostOp} (hp : s.prog = .poll a m v :: ps) :
    hostTurn s = .next (pollAgain a m v { s with prog := ps, rdata := memRead a s.blk }) := by
  rw [hostTurn, hp]
  rfl

/-- Settles O44: a word is a write or a read, and a read is bound where there is a name. -/
theorem hostStepRunsNextWord : Obligations.HostStepRunsNextWord := by
  intro s w dest ps ts hs hp
  rw [step_host hs, hostTurn_xfer (s := { s with sched := ts }) hp]
  cases hwe : weField w with
  | true =>
    rw [decodeBus_write hwe]
    exact ⟨fun _ => rfl, nofun⟩
  | false =>
    rw [decodeBus_read hwe]
    constructor
    · rintro (rfl | h)
      · rfl
      · cases h
    · rintro n rfl -
      exact ⟨_, rfl, rfl⟩

/-- Settles O45: the byte read decides whether the poll is put back at the head of the program. -/
theorem pollRepeatsUntilMatch : Obligations.PollRepeatsUntilMatch := by
  intro s a m v ps ts hs hp
  rw [step_host (.inl hs), hostTurn_poll (s := { s with sched := ts }) hp]
  constructor
  · intro h
    rw [pollAgain, if_pos h]
  · intro h
    rw [pollAgain, if_neg h, ← hp]

/-- Settles O58: the new binding is the newest of its name, and hides no other name's. -/
theorem namedReadBindsItsByte : Obligations.NamedReadBindsItsByte := by
  intro s a n ps ts hs hp
  refine ⟨_, step_named_read s a n ps ts hs hp, ?_, fun m hm => ?_, rfl, rfl, rfl⟩
  · rw [boundByte_cons n n _ _ _ rfl, if_pos rfl]
  · rw [boundByte_cons m n _ _ _ rfl, if_neg hm.symm]
    exact boundByte_congr m _ _ rfl

/-! ### Runs of named reads -/

/-- A turn that the schedule names answers a next state where the invariant holds: the pending command was accepted
(R125), and the host and the reset input never stop (R240). -/
theorem step_next_of_inv {s : State} {m : Turn} {ts : List Turn} (hinv : Inv s) (hs : s.sched = m :: ts) :
    ∃ t, step s = .next t := by
  cases m with
  | host =>
    rw [step_host (.inl hs)]
    exact hostTurn_next _
  | reset => simp [step, hs, takeTurn, resetTurn]
  | engine =>
    simp only [step, hs, takeTurn, engineTurn]
    split
    case isTrue hb =>
      obtain ⟨i, hi, ha⟩ := hinv.pending hb
      simp only [commit, hi]
      exact ⟨_, exec_acceptable i _ (decodeCmd_isCommand _ _ hi) ha⟩
    case isFalse => exact ⟨_, rfl⟩

/-- A run goes on from where its first step leaves it. -/
theorem run_succ {M : Host.Core} {s u : M.State} (k : Nat) (h : M.step s = .next u) : M.run (k + 1) s = M.run k u := by
  rw [Host.Core.run, h]

/-- A run goes on from where its first `j` steps leave it. -/
theorem run_add {M : Host.Core} {s u : M.State} {j : Nat} (k : Nat) (h : M.run j s = .next u) :
    M.run (j + k) s = M.run k u := by
  induction j generalizing s with
  | zero =>
    cases h
    rw [Nat.zero_add]
  | succ j ih =>
    rw [Host.Core.run] at h
    split at h
    case h_1 t hstep => rw [Nat.succ_add, run_succ _ hstep, ih h]
    case h_2 => cases h
    case h_3 => cases h

/-- Between two host turns the engine and the reset input move the schedule on and leave the host's side alone
(log entry 5). -/
theorem run_other_turns {s : State} {mid ts : List Turn} (hinv : Inv s) (hs : s.sched = mid ++ ts)
    (hmid : ∀ m ∈ mid, m ≠ .host) :
    ∃ t, Host.Core.run Sys2Proof.core mid.length s = .next t ∧ Inv t ∧ t.prog = s.prog ∧ t.names = s.names ∧
      t.sched = ts ∧ (mid = [] → t.blk = s.blk) := by
  induction mid generalizing s with
  | nil => exact ⟨s, rfl, hinv, rfl, rfl, hs, fun _ => rfl⟩
  | cons m mid ih =>
    obtain ⟨hm, hmid⟩ := List.forall_mem_cons.1 hmid
    obtain ⟨u, hstep⟩ := step_next_of_inv hinv hs
    obtain ⟨hprog, hnames, hsched⟩ := step_other_turn s u m _ hs hm hstep
    obtain ⟨t, hrun, ht, hprog', hnames', hsched', -⟩ := ih (stepKeepsInvariant s u hinv hstep) hsched hmid
    exact ⟨t, (run_succ _ hstep).trans hrun, ht, hprog'.trans hprog, hnames'.trans hnames, hsched', nofun⟩

/-- The host's turn of a named read, and the turns of engine and reset up to the host's next one: the byte read is
bound, and nothing else of the host's side but its program changes. -/
theorem run_named_read {s : State} {a : Byte} {n : HostName} {ps : List HostOp} {mid ts : List Turn} (hinv : Inv s)
    (hs : s.sched = .host :: mid ++ ts) (hp : s.prog = rdOp a (some n) :: ps) (hmid : ∀ m ∈ mid, m ≠ .host) :
    ∃ t, Host.Core.run Sys2Proof.core (mid.length + 1) s = .next t ∧ Inv t ∧ t.prog = ps ∧
      t.names = (n, memRead a s.blk) :: s.names ∧ t.sched = ts ∧ (mid = [] → t.blk = s.blk) := by
  have hread := step_named_read s a n ps (mid ++ ts) hs hp
  obtain ⟨t, hrun, ht, hprog, hnames, hsched, hblk⟩ :=
    run_other_turns (stepKeepsInvariant s _ hinv hread) rfl hmid
  exact ⟨t, (run_succ _ hread).trans hrun, ht, hprog, hnames, hsched, hblk⟩

/-- The word of two bytes just bound, the high one first (R102). -/
theorem boundWord16_of_names {t : State} {n : String} {hi lo : Byte} {bs : List (HostName × Byte)}
    (h : t.names = ({ base := n, part := .lo }, lo) :: ({ base := n, part := .hi }, hi) :: bs) :
    boundWord16 n t = some (hi ++ lo) := by
  simp [boundWord16, boundByte, h]

/-- The word of three bytes just bound, the most significant first (R102). -/
theorem boundWord24_of_names {t : State} {n : String} {b2 b1 b0 : Byte} {bs : List (HostName × Byte)}
    (h : t.names = ({ base := n, part := .b0 }, b0) :: ({ base := n, part := .b1 }, b1) ::
      ({ base := n, part := .b2 }, b2) :: bs) :
    boundWord24 n t = some (b2 ++ b1 ++ b0) := by
  simp [boundWord24, boundByte, h]

theorem expand_rd16_eq_some {a : Byte} {n : String} {ops : List HostOp} (h : expand (.rd16 a n) = some ops) :
    ops = [rdOp a (some { base := n, part := .hi }), rdOp (a + 1) (some { base := n, part := .lo })] := by
  obtain ha | ha := Nat.lt_or_ge a.toNat 0xFF
  · exact Option.some.inj (h.symm.trans (expand_rd16 n ha))
  · exact nomatch h.symm.trans (expand_rd16_eq_none n ha)

theorem expand_rd24_eq_some {a : Byte} {n : String} {ops : List HostOp} (h : expand (.rd24 a n) = some ops) :
    ops = [rdOp a (some { base := n, part := .b2 }), rdOp (a + 1) (some { base := n, part := .b1 }),
      rdOp (a + 2) (some { base := n, part := .b0 })] := by
  obtain ha | ha := Nat.lt_or_ge a.toNat 0xFE
  · exact Option.some.inj (h.symm.trans (expand_rd24 n ha))
  · exact nomatch h.symm.trans (expand_rd24_eq_none n ha)

/-- Settles O59: a named read with the turns after it, and then a named read alone. -/
theorem rd16FormsWord : Obligations.Rd16FormsWord := by
  intro s a n ops ps mid ts hinv hops hp hs hmid
  rw [expand_rd16_eq_some hops] at hp
  obtain ⟨u, hrunu, hu, hprogu, hnamesu, hschedu, hblku⟩ := run_named_read hinv hs hp hmid
  obtain ⟨t, hrunt, -, hprogt, hnamest, hschedt, hblkt⟩ := run_named_read (mid := []) hu hschedu hprogu nofun
  rw [hnamesu] at hnamest
  exact ⟨u, t, hrunu, (run_add 1 hrunu).trans hrunt, boundWord16_of_names hnamest, hblku, hblkt rfl, hprogt, hschedt⟩

/-- Settles O60: two named reads, each with the turns after it, and then a named read alone. -/
theorem rd24FormsWord : Obligations.Rd24FormsWord := by
  intro s a n ops ps mid₁ mid₂ ts hinv hops hp hs hmid₁ hmid₂
  rw [expand_rd24_eq_some hops] at hp
  rw [List.append_assoc] at hs
  obtain ⟨u, hrunu, hu, hprogu, hnamesu, hschedu, hblku⟩ := run_named_read hinv hs hp hmid₁
  obtain ⟨v, hrunv, hv, hprogv, hnamesv, hschedv, hblkv⟩ := run_named_read hu hschedu hprogu hmid₂
  obtain ⟨t, hrunt, -, hprogt, hnamest, hschedt, hblkt⟩ := run_named_read (mid := []) hv hschedv hprogv nofun
  have hrunv' : Host.Core.run Sys2Proof.core (mid₁.length + mid₂.length + 2) s = .next v := by
    rw [show mid₁.length + mid₂.length + 2 = mid₁.length + 1 + (mid₂.length + 1) by omega, run_add _ hrunu, hrunv]
  rw [hnamesv, hnamesu] at hnamest
  exact ⟨u, v, t, hrunu, hrunv', (run_add 1 hrunv').trans hrunt, boundWord24_of_names hnamest, hblku, hblkv,
    hblkt rfl, hprogt, hschedt⟩

end Sys2Proof.Machine
end

section
/-! SUPPORT. The family of spec/40_issue_and_control.md: what issuing a command does, what a commit leaves unchanged,
and the statements about the time between the two. -/

namespace Sys2Proof.Machine

open Sys2Proof.Safety

/-! ### Issue -/

/-- Settles O13: the bytes fall into the classes of R98, and of the legal ones only the DIGEST bytes are checked
against the state. -/
theorem issueCommandOutcomes : Obligations.IssueCommandOutcomes := by
  intro s v
  rw [exec_wr_cmd]
  refine ⟨fun hb => ?_, fun hb h => ?_, fun hb h => ?_, fun hb h hr => ?_, fun hb h => ?_⟩
  · rw [issueCommand_busy v s.blk hb]; rfl
  · rw [issueCommand_reject v s.blk .illegalOp hb (decodeCmd_illegal v h)]; rfl
  · rw [issueCommand_reject v s.blk .badArg hb (decodeCmd_badArg v h)]; rfl
  · rw [issueCommand_digest v s.blk hb h, if_neg hr.not_ge]; rfl
  · obtain ⟨hd, hr⟩ | ho : ((v = 0x20 ∨ v = 0x21) ∧ s.blk.doff.toNat + s.blk.dlen.toNat ≤ 26) ∨
        (v = 0x00 ∨ v = 0x10 ∨ within 0x30 0x3F v ∨ v = 0x40) := by tauto
    · rw [issueCommand_digest v s.blk hb hd, if_pos hr]; rfl
    · rw [issueCommand_other v s.blk hb ho]; rfl

/-! ### The STATUS byte -/

theorem memRead_status (b : Block) : memRead 0x41 b = statusByte b := rfl

/-- The fields of STATUS, read back from its byte (R25). -/
theorem statusByte_fields (b : Block) :
    b.busy = (statusByte b).getLsbD 7 ∧ b.done = (statusByte b).getLsbD 6 ∧ b.err = (statusByte b).getLsbD 5 ∧
    b.complete = (statusByte b).getLsbD 4 ∧ b.valid = (statusByte b).getLsbD 3 ∧
    b.code = (statusByte b).extractLsb' 0 3 := by
  have key : ∀ (busy done err complete valid : Bool) (code : BitVec 3),
      let v : Byte := BitVec.ofBool busy ++ BitVec.ofBool done ++ BitVec.ofBool err ++ BitVec.ofBool complete ++
        BitVec.ofBool valid ++ code
      busy = v.getLsbD 7 ∧ done = v.getLsbD 6 ∧ err = v.getLsbD 5 ∧ complete = v.getLsbD 4 ∧ valid = v.getLsbD 3 ∧
        code = v.extractLsb' 0 3 := by
    decide
  exact key b.busy b.done b.err b.complete b.valid b.code

/-- STATUS when DONE alone is set. -/
theorem statusByte_of_done_alone {b : Block} (hbusy : b.busy = false) (hdone : b.done = true) (herr : b.err = false)
    (hcomplete : b.complete = false) (hvalid : b.valid = false) (hcode : b.code = 0) : statusByte b = 0x40 := by
  rw [statusByte, hbusy, hdone, herr, hcomplete, hvalid, hcode]
  rfl

/-- Settles O16: NOP's commit writes nothing of its own, and its acceptance and rejections are those of O13. -/
theorem nopOnlyCompletes : Obligations.NopOnlyCompletes := by
  intro s
  obtain ⟨busy, -, -, -, accepted⟩ := issueCommandOutcomes s 0x00
  refine ⟨rfl, fun hb => accepted hb (.inl rfl), busy, fun v hb hv => ?badArg, fun h => ?status_example⟩
  case badArg =>
    obtain ⟨-, -, badArg, -⟩ := issueCommandOutcomes s v
    exact badArg hb (.inl hv)
  case status_example =>
    obtain ⟨hbusy, -, -, hcomplete, hvalid, hcode⟩ := statusByte_fields s.blk
    rw [memRead_status] at h
    rw [h] at hbusy hcomplete hvalid hcode
    exact ⟨_, _, accepted hbusy (.inl rfl), rfl, statusByte_of_done_alone rfl rfl rfl hcomplete hvalid hcode, rfl⟩

/-! ### What a commit leaves unchanged -/

/-- The named addresses of DSUM, CHK and the record (R61). -/
def resultPort : Port → Bool
  | .dsum _ | .chk _ | .id _ | .stype | .sinfo | .flags | .fvalid | .wdir _ | .wgust _ | .wavg _ | .rain _ | .hum
  | .temp _ | .lux _ | .uv _ | .traw _ => true
  | _ => false

/-- The named addresses whose bytes a command's own rule writes, beside STATUS (R130, R131, R170, R175, R233). -/
def writesPort : Instr → Port → Bool
  | .decode, p | .clear, p => resultPort p
  | .digest _, p => p == .dsum .hi || p == .dsum .lo
  | .lstep _, p => p == .lstate .hi || p == .lstate .lo
  | _, _ => false

theorem writesPort_portOf_iff (i : Instr) (a : Byte) : writesPort i (portOf a) = true ↔ resultAddr i a := by
  cases i with
  | nop | rd | wr => simp [writesPort, resultAddr]
  | decode | digest | lstep | clear =>
    simp only [writesPort, resultAddr, within]
    revert a
    decide

theorem portOf_ne_status {a : Byte} (h : a ≠ 0x41) : portOf a ≠ .status := by
  intro hp
  obtain hr | ha := portOf_injective a 0x41 hp
  · rw [hp] at hr
    cases hr
  · exact h ha

/-- Blocks that differ in STATUS, DSUM, CHK and the record alone read alike at every other address. -/
theorem readPort_congr {b c : Block} (hin : SameInputs b c) (he : c.errcode = b.errcode) (hl : c.lstate = b.lstate)
    {p : Port} (hs : p ≠ .status) (hp : resultPort p = false) : readPort c p = readPort b p := by
  obtain ⟨hpayload, hgen, hkey, hdoff, hdlen⟩ := hin
  cases p with
  | status => exact absurd rfl hs
  | payload | dw | cmd | errcode | gen | key | doff | dlen | lstate | reserved =>
    simp only [readPort, hpayload, hgen, hkey, hdoff, hdlen, he, hl]
  | _ => cases hp

/-- DECODE leaves LSTATE alone (R233). -/
theorem decodeBlock_lstate (b : Block) : (decodeBlock b).lstate = b.lstate := by
  obtain ⟨-, h⟩ | ⟨-, -, h⟩ | ⟨-, -, h⟩ := decodeBlock_cases b <;> rw [h] <;> rfl

/-- BUSY and DONE show at STATUS alone (R25). -/
theorem readPort_finish (b : Block) {p : Port} (hs : p ≠ .status) : readPort (finish b) p = readPort b p := by
  cases p with
  | status => exact absurd rfl hs
  | _ => rfl

/-- A command's writes show at STATUS and at the addresses its rule names, and nowhere else. -/
theorem readPort_commandBlock (i : Instr) (b : Block) {p : Port} (hs : p ≠ .status) (hw : writesPort i p = false) :
    readPort (commandBlock i b) p = readPort b p := by
  obtain ⟨hin, -, -, -, he, -⟩ := commandBlock_frame i b
  cases i with
  | nop | rd | wr => rfl
  | decode => exact readPort_congr hin he (decodeBlock_lstate b) hs hw
  | clear => exact readPort_congr hin he rfl hs hw
  | digest =>
    cases p with
    | dsum h => cases h <;> cases hw
    | _ => rfl
  | lstep =>
    cases p with
    | lstate h => cases h <;> cases hw
    | _ => rfl

/-- Settles O37: each command's block keeps the inputs, and its writes show at its own addresses alone. -/
theorem commandFrame : Obligations.CommandFrame := by
  intro i s t hi h
  obtain rfl := exec_command i s t hi h
  obtain ⟨inputs, -, -, err, errcode, pend⟩ := commandBlock_frame i s.blk
  refine ⟨rfl, rfl, err, errcode, pend, inputs, ⟨rfl, rfl, rfl, rfl⟩, fun a ha hr => ?reads, fun hd hc => ?outcome⟩
  case reads =>
    rw [← writesPort_portOf_iff, Bool.not_eq_true] at hr
    have hs := portOf_ne_status ha
    exact (readPort_finish _ hs).trans (readPort_commandBlock i s.blk hs hr)
  case outcome =>
    obtain ⟨-, code, valid, complete⟩ | ⟨rfl, -⟩ | ⟨rfl, -⟩ | ⟨rfl, -⟩ := commandBlock_outcome i s.blk
    · exact ⟨code, valid, complete⟩
    · exact absurd rfl hd
    · exact absurd rfl hd
    · exact absurd rfl hc

/-! ### CLEAR and DECODE -/

theorem half_zero (h : Half) : half h 0 = 0x00 := by cases h <;> rfl

theorem third_zero (t : Third) : third t 0 = 0x00 := by cases t <;> rfl

/-- After CLEAR every result register reads 0x00 (R131). -/
theorem readPort_clear (b : Block) {p : Port} (hp : resultPort p = true) :
    readPort (finish (clearBlock b)) p = 0x00 := by
  cases p with
  | dsum h | chk h | id h | wdir h | wgust h | wavg h | temp h | uv h | traw h => exact half_zero h
  | rain t | lux t => exact third_zero t
  | stype | sinfo | flags | fvalid | hum => rfl
  | _ => cases hp

/-- Settles O17: CLEAR's writes field by field and read back at 0x4C to 0x68; its acceptance and rejections are those
of O13. -/
theorem clearZeroesResults : Obligations.ClearZeroesResults := by
  intro s
  obtain ⟨busy, -, -, -, accepted⟩ := issueCommandOutcomes s 0x40
  replace accepted := fun hb => accepted hb (.inr (.inr (.inr (.inr rfl))))
  refine ⟨rfl, ⟨_, rfl, fun a ha => readPort_clear s.blk ((writesPort_portOf_iff .clear a).2 ha)⟩, accepted, busy,
    fun v hb hv => ?badArg, fun h => ?status_example⟩
  case badArg =>
    obtain ⟨-, -, badArg, -⟩ := issueCommandOutcomes s v
    exact badArg hb (.inr (.inr (.inr hv)))
  case status_example =>
    obtain ⟨hb, -⟩ := statusByte_fields s.blk
    rw [memRead_status] at h
    rw [h] at hb
    exact ⟨_, _, accepted hb, rfl, statusByte_of_done_alone rfl rfl rfl rfl rfl rfl⟩

/-- Of the status vocabulary a frame decodes to three values (R26, R237). -/
theorem frameStatus_cases (p : Payload) : frameStatus p = .invalid ∨ frameStatus p = .ok ∨ frameStatus p = .digErr := by
  unfold frameStatus
  split
  · exact .inl rfl
  · split
    · exact .inr (.inl rfl)
    · exact .inr (.inr rfl)

/-- What DECODE writes, wherever it writes it, is a function of the payload (R191, R233). -/
theorem decodeBlock_congr {b c : Block} (hp : c.payload = b.payload) :
    (decodeBlock c).code = (decodeBlock b).code ∧ (decodeBlock c).valid = (decodeBlock b).valid ∧
    (decodeBlock c).complete = (decodeBlock b).complete ∧
    ((decodeBlock b).code ≠ 0 →
      (decodeBlock c).dsum = (decodeBlock b).dsum ∧ (decodeBlock c).chk = (decodeBlock b).chk) ∧
    ((decodeBlock b).code = 1 → (decodeBlock c).record = (decodeBlock b).record) := by
  unfold decodeBlock
  rw [hp]
  obtain h | h | h := frameStatus_cases b.payload <;> simp [h, hp, DecodeStatus.code]

/-- Settles O25: both states commit, and the payload decides what is written. -/
theorem decodeDependsOnPayloadAlone : Obligations.DecodeDependsOnPayloadAlone :=
  fun _ _ hp => ⟨_, _, rfl, rfl, decodeBlock_congr hp⟩

/-! ### Who writes the inputs -/

/-- A write changes an input register only at an address of one, while no command is pending (R66, R127). -/
theorem memWrite_sameInputs (a v : Byte) (b : Block) :
    SameInputs b (memWrite a v b) ∨ (b.busy = false ∧ (within 0x00 0x19 a ∨ within 0x44 0x49 a)) := by
  obtain h | ⟨-, h⟩ | ⟨-, -, c, h, -⟩ | ⟨-, -, -, h⟩ | ⟨hb, -, hw, h⟩ := memWrite_cases a v b <;> rw [h]
  case inr.inr.inr.inr =>
    obtain ha | rfl | rfl : (within 0x00 0x19 a ∨ within 0x44 0x49 a) ∨ a = 0x4A ∨ a = 0x4B := by
      rw [writable_iff] at hw
      simp only [within] at hw ⊢
      bv_omega
    · exact .inr ⟨hb, ha⟩
    all_goals exact .inl ⟨rfl, rfl, rfl, rfl, rfl⟩
  all_goals exact .inl ⟨rfl, rfl, rfl, rfl, rfl⟩

/-- Settles O38: no commit writes an input, and the host's write does so only to one of their addresses. -/
theorem onlyHostWritesChangeInputs : Obligations.OnlyHostWritesChangeInputs := by
  intro s t h
  obtain ⟨hm, -⟩ | ⟨-, -, ht⟩ | ⟨-, -, i, -, ht⟩ | ⟨hm, -, ht | ⟨a, v, dest, ps, hp, ht⟩⟩ := step_cases s t h
  · exact .inr (.inl hm)
  · rw [ht]
    exact .inl ⟨rfl, rfl, rfl, rfl, rfl⟩
  · rw [ht]
    obtain ⟨inputs, -⟩ := commandBlock_frame i s.blk
    exact .inl inputs
  · rw [ht]
    exact .inl ⟨rfl, rfl, rfl, rfl, rfl⟩
  · rw [ht]
    obtain hin | ⟨hb, ha⟩ := memWrite_sameInputs a v s.blk
    · exact .inl hin
    · exact .inr (.inr ⟨hm, hb, a, v, dest, ps, hp, ha⟩)

/-! ### From acceptance to commit -/

/-- Settles O39: the events after which BUSY is still 1 are a turn that passes and a dropped write. -/
theorem pendingCommandIsFrozen : Obligations.PendingCommandIsFrozen := by
  intro s t hb h hb'
  have hstep := blockStep_of_step h
  generalize t.blk = c at hstep hb' ⊢
  cases hstep with
  | stay | drop => exact ⟨⟨rfl, rfl, rfl, rfl, rfl⟩, ⟨rfl, rfl, rfl, rfl, rfl, rfl, rfl⟩, rfl, rfl⟩
  | reset | commit => cases hb'
  | reject _ hidle | issue _ hidle | store _ hidle => simp [hb] at hidle

/-- The engine moves when the schedule names it, or when it names no turn and a command is pending (log entry 2). -/
theorem step_engine {s : State} {ts : List Turn}
    (h : s.sched = .engine :: ts ∨ (s.sched = [] ∧ ts = [] ∧ s.blk.busy = true)) :
    step s = engineTurn { s with sched := ts } := by
  obtain hs | ⟨hs, rfl, hb⟩ := h
  · simp [step, hs, takeTurn]
  · have hself : { s with sched := [] } = s := by rw [← hs]
    rw [hself, step, hs]
    simp [freeTurn, hb]

theorem engineTurn_idle {s : State} (hb : s.blk.busy = false) : engineTurn s = .next s := by
  simp [engineTurn, hb]

theorem engineTurn_pending {s : State} {i : Instr} (hb : s.blk.busy = true) (hi : decodeCmd s.blk.pend = .instr i) :
    engineTurn s = exec i s := by
  simp [engineTurn, hb, commit, hi]

/-- Settles O46: the schedule names the engine, and an idle engine's turn passes. -/
theorem idleEngineTurnChangesNothing : Obligations.IdleEngineTurnChangesNothing := by
  intro s ts hs hb
  exact (step_engine (.inl hs)).trans (engineTurn_idle hb)

/-- Settles O43: with BUSY set, the engine moves in both cases. -/
theorem engineStepRunsPendingCommand : Obligations.EngineStepRunsPendingCommand := by
  intro s i ts hs hb hi
  exact (step_engine (hs.imp_right fun ⟨h, hts⟩ => ⟨h, hts, hb⟩)).trans (engineTurn_pending hb hi)

/-! ### Latency -/

/-- A dropped write leaves nothing that a command reads: dropped before the commit or after it, the block is the same
(R123, R126). -/
theorem commandBlock_dropBusyWrite (i : Instr) (b : Block) :
    commandBlock i (dropBusyWrite b) = dropBusyWrite (commandBlock i b) := by
  cases i with
  | nop | digest | lstep | clear | rd | wr => rfl
  | decode =>
    simp only [commandBlock, decodeBlock, dropBusyWrite_payload]
    split <;> rfl

/-- All that a turn of the host can do to a busy block is a dropped write (R123, R242). -/
theorem step_host_of_busy {s : State} {ts : List Turn} (hs : s.sched = .host :: ts) (hb : s.blk.busy = true) :
    ∃ t, step s = .next t ∧ t.sched = ts ∧ (t.blk = s.blk ∨ t.blk = dropBusyWrite s.blk) := by
  obtain ⟨t, ht⟩ := hostTurn_next { s with sched := ts }
  obtain ⟨hsched, hblk⟩ := hostTurn_cases _ t ht
  refine ⟨t, (step_host (.inl hs)).trans ht, hsched, ?_⟩
  obtain h | ⟨a, v, dest, ps, -, h⟩ := hblk
  · exact .inl h
  · rw [h, memWrite_busy a v _ hb]
    split
    · exact .inr rfl
    · exact .inl rfl

/-- Any number of turns of the host leave a busy block as one dropped write does, if not as it was. -/
theorem run_host_of_busy {s : State} {n : Nat} {ts : List Turn} (hs : s.sched = List.replicate n .host ++ ts)
    (hb : s.blk.busy = true) :
    ∃ t, Host.Core.run Sys2Proof.core n s = .next t ∧ t.sched = ts ∧
      (t.blk = s.blk ∨ t.blk = dropBusyWrite s.blk) := by
  induction n generalizing s with
  | zero => exact ⟨s, rfl, hs, .inl rfl⟩
  | succ n ih =>
    obtain ⟨u, hstep, hsched, hu⟩ := step_host_of_busy hs hb
    have hbu : u.blk.busy = true := by obtain h | h := hu <;> rw [h] <;> exact hb
    obtain ⟨t, hrun, hsched', ht⟩ := ih hsched hbu
    refine ⟨t, (run_succ n hstep).trans hrun, hsched', ?_⟩
    obtain h | h := hu <;> rw [h] at ht
    · exact ht
    · exact .inr (ht.elim id id)

/-- The engine's turn commits a command that was accepted (R125). -/
theorem step_commit {s : State} {i : Instr} {ts : List Turn} (hs : s.sched = .engine :: ts) (hb : s.blk.busy = true)
    (hi : decodeCmd s.blk.pend = .instr i) (ha : acceptable i s.blk = true) :
    step s = .next { s with sched := ts, blk := finish (commandBlock i s.blk) } := by
  rw [engineStepRunsPendingCommand s i ts (.inl hs) hb hi]
  exact exec_acceptable i _ (decodeCmd_isCommand _ _ hi) ha

/-- Settles O53: the turns of the host drop writes, and a dropped write does not reach the commit. -/
theorem resultsIndependentOfLatency : Obligations.ResultsIndependentOfLatency := by
  intro s n ts hinv hb hs
  obtain ⟨i, hi, ha⟩ := hinv.pending hb
  obtain ⟨v, hrun, hsched, hv⟩ := run_host_of_busy hs hb
  have accepted : v.blk.busy = true ∧ decodeCmd v.blk.pend = .instr i ∧ acceptable i v.blk = true := by
    obtain h | h := hv <;> rw [h] <;> exact ⟨hb, hi, (acceptable_congr i rfl rfl).trans ha⟩
  obtain ⟨hbv, hiv, hav⟩ := accepted
  have late := step_commit hsched hbv hiv hav
  refine ⟨_, _, (run_add 1 hrun).trans (run_succ 0 late), step_commit rfl hb hi ha, ?_⟩
  obtain h | h := hv <;> rw [h]
  case' inr => rw [commandBlock_dropBusyWrite]
  all_goals exact ⟨⟨rfl, rfl, rfl, rfl, rfl⟩, ⟨rfl, rfl, rfl, rfl, rfl, rfl, rfl⟩, rfl, rfl⟩

end Sys2Proof.Machine
end

section
/-! SUPPORT. The family of spec/41_dewhitener.md: the bits of the whitening mask, and the statement about the window. -/

namespace Sys2Proof.Machine

/-- The whitening mask has bits 7, 5, 3 and 1 set and no other (R8, R151). -/
theorem whitenMask_getLsbD : ∀ k : Fin 8, Config.whitenMask.getLsbD k = decide (k.val % 2 = 1) := by decide

/-- De-whitening inverts bits 7, 5, 3 and 1 and keeps the others (R151). -/
theorem dewhiten_getLsbD (v : Byte) (k : Fin 8) :
    (v ^^^ 0xAA).getLsbD k = (v.getLsbD k ^^ decide (k.val % 2 = 1)) := by
  rw [BitVec.getLsbD_xor, ← whitenMask_getLsbD]

/-- Settles O27: the window is the payload XOR the mask, whose odd bits are set, and XOR with a mask undoes itself. -/
theorem dewhiteningIsInvolutiveView : Obligations.DewhiteningIsInvolutiveView := by
  refine ⟨fun b i => ?_, dewhiten_dewhiten⟩
  have window : memRead (BitVec.ofNat 8 (0x20 + i)) b = memRead (BitVec.ofNat 8 i) b ^^^ 0xAA := by
    rw [memRead_dw, memRead_payload]
  refine ⟨window, fun k => ?_⟩
  rw [window, dewhiten_getLsbD]

end Sys2Proof.Machine
end

section
/-! SUPPORT. The family of spec/42_digest.md: the LFSR step, the laws of the digest, DIGEST and LSTEP, and the
detection of a single flipped bit. -/

namespace Sys2Proof.Machine

open Sys2Proof.Safety

/-! ### The LFSR step -/

theorem lfsrStep_of_odd {k : Word16} (g : Word16) (h : k.getLsbD 0 = true) : lfsrStep k g = (k >>> 1) ^^^ g :=
  if_pos h

theorem lfsrStep_of_even {k : Word16} (g : Word16) (h : k.getLsbD 0 = false) : lfsrStep k g = k >>> 1 := by
  rw [lfsrStep, h, if_neg Bool.false_ne_true]

/-- The shift is logical (R160). -/
theorem ushiftRight_one_getLsbD_15 (k : Word16) : (k >>> 1).getLsbD 15 = false := by
  rw [BitVec.getLsbD_ushiftRight, BitVec.getLsbD_of_ge k (1 + 15) (by decide)]

/-- Under a generator with bit 15 set, the dropped bit re-enters at bit 15 (R160). -/
theorem lfsrStep_getLsbD_15 (k : Word16) {g : Word16} (hg : g.getLsbD 15 = true) :
    (lfsrStep k g).getLsbD 15 = k.getLsbD 0 := by
  cases h : k.getLsbD 0 with
  | true => rw [lfsrStep_of_odd g h, BitVec.getLsbD_xor, ushiftRight_one_getLsbD_15, hg]; rfl
  | false => rw [lfsrStep_of_even g h, ushiftRight_one_getLsbD_15]

/-- Settles O28: the two branches of the step, and what each leaves in bit 15. -/
theorem lfsrStepShiftsThenXors : Obligations.LfsrStepShiftsThenXors := fun k g =>
  ⟨lfsrStep_of_odd g, lfsrStep_of_even g, ushiftRight_one_getLsbD_15 k, lfsrStep_getLsbD_15 k rfl⟩

/-! ### The keystream -/

theorem lfsrStep_zero_gen (k : Word16) : lfsrStep k 0 = k >>> 1 := by
  cases h : k.getLsbD 0 with
  | true => rw [lfsrStep_of_odd 0 h]; exact BitVec.xor_zero
  | false => exact lfsrStep_of_even 0 h

/-- A zero generator shifts the key (R164). -/
theorem keyStream_zero_gen (k : Word16) (j : Nat) : keyStream 0 k j = k >>> j := by
  induction j with
  | zero => exact (BitVec.ushiftRight_zero k).symm
  | succ j ih => rw [keyStream, ih, lfsrStep_zero_gen, ← BitVec.shiftRight_add]

/-- Under a generator with bit 15 set, the step loses nothing: only 0 goes to 0. -/
theorem lfsrStep_ne_zero {k g : Word16} (hg : g.getLsbD 15 = true) (hk : k ≠ 0) : lfsrStep k g ≠ 0 := by
  intro h
  have even : k.getLsbD 0 = false := by rw [← lfsrStep_getLsbD_15 k hg, h]; rfl
  rw [lfsrStep_of_even g even] at h
  refine hk (BitVec.eq_of_getLsbD_eq fun i _ => ?_)
  cases i with
  | zero => exact even
  | succ i =>
    have shifted : (k >>> 1).getLsbD i = false := by rw [h]; exact BitVec.getLsbD_zero
    rw [BitVec.getLsbD_ushiftRight, Nat.add_comm] at shifted
    exact shifted.trans BitVec.getLsbD_zero.symm

theorem keyStream_ne_zero {k g : Word16} (hg : g.getLsbD 15 = true) (hk : k ≠ 0) (j : Nat) : keyStream g k j ≠ 0 := by
  induction j with
  | zero => exact hk
  | succ j ih => exact lfsrStep_ne_zero hg ih

/-! ### The digest in its two forms -/

/-- The first `len` bytes hold the first `8·len` input bits (R163). -/
theorem inputBits_take (bytes : List Byte) (len : Nat) :
    inputBits (bytes.take len) = (inputBits bytes).take (8 * len) := by
  induction len generalizing bytes with
  | zero => rfl
  | succ len ih =>
    cases bytes with
    | nil => rfl
    | cons b bs =>
      rw [List.take_succ_cons, inputBits_cons, inputBits_cons, ih, Nat.mul_succ]
      rfl

/-- A bit more at the end gates the next key. -/
theorem bitSum_concat (g : Word16) (bs : List Bool) (b : Bool) (k : Word16) :
    bitSum g (bs ++ [b]) k = bitSum g bs k ^^^ if b then keyStream g k bs.length else 0 := by
  rw [bitSum_append, keyStream_eq_steps]
  exact congrArg (bitSum g bs k ^^^ ·) BitVec.xor_zero

/-- The first `n` input bits gate the first `n` keys (R163). -/
theorem bitSum_take_inputBits (g k : Word16) (bytes : List Byte) {n : Nat} (hn : n ≤ (inputBits bytes).length) :
    bitSum g ((inputBits bytes).take n) k =
      (List.range n).foldl (fun acc j => acc ^^^ if inputBit bytes j then keyStream g k j else 0) 0 := by
  induction n with
  | zero => rfl
  | succ n ih =>
    rw [List.take_succ_eq_append_getElem hn, bitSum_concat, ih (Nat.le_of_succ_le hn), inputBits_getElem,
      List.length_take_of_le (Nat.le_of_succ_le hn), List.range_succ, List.foldl_concat]

theorem digest16_eq_digestTree {bytes : List Byte} {len : Nat} (g k : Word16) (h : len ≤ bytes.length) :
    digest16 bytes len g k = digestTree bytes len g k := by
  rw [digest16_eq_bitSum, inputBits_take]
  exact bitSum_take_inputBits g k bytes (by rw [inputBits_length]; omega)

/-- Settles O29: the sum over the input bits, taken bit by bit from the first. -/
theorem serialDigestEqualsXorTree : Obligations.SerialDigestEqualsXorTree := fun _ _ g k h =>
  ⟨rfl, fun _ => rfl, digest16_eq_digestTree g k h⟩

/-! ### Laws of the digest -/

theorem digest16_zero_len (bytes : List Byte) (g k : Word16) : digest16 bytes 0 g k = 0 := rfl

theorem digest16_zero_key (bytes : List Byte) (len : Nat) (g : Word16) : digest16 bytes len g 0 = 0 := by
  rw [digest16_eq_bitSum]
  exact bitSum_zero_key g _

theorem digest16_all (bytes : List Byte) (g k : Word16) :
    digest16 bytes bytes.length g k = bitSum g (inputBits bytes) k := by
  rw [digest16_eq_bitSum, List.take_length]

theorem inputBits_replicate_zero (n : Nat) : inputBits (List.replicate n 0x00) = List.replicate (8 * n) false := by
  induction n with
  | zero => rfl
  | succ n ih =>
    rw [List.replicate_succ, inputBits_cons, ih, Nat.mul_succ, Nat.add_comm, List.replicate_add]
    rfl

/-- The digest is linear in the data (R164). -/
theorem digest16_xor (xs ys : List Byte) (g k : Word16) (h : xs.length = ys.length) :
    digest16 (List.zipWith (· ^^^ ·) xs ys) xs.length g k =
      digest16 xs xs.length g k ^^^ digest16 ys ys.length g k := by
  have zip_length : (List.zipWith (· ^^^ ·) xs ys).length = xs.length := by simp [h]
  have bits_length : (inputBits xs).length = (inputBits ys).length := by rw [inputBits_length, inputBits_length, h]
  calc digest16 (List.zipWith (· ^^^ ·) xs ys) xs.length g k
      = bitSum g (inputBits (List.zipWith (· ^^^ ·) xs ys)) k := by rw [← zip_length, digest16_all]
    _ = bitSum g (inputBits xs) k ^^^ bitSum g (inputBits ys) k := by
        rw [inputBits_zipWith, bitSum_xor_bits g _ _ k bits_length]
    _ = _ := by rw [digest16_all, digest16_all]

/-- Settles O30: linearity is that of the bit sum, and the corners are those of its bits, key and keystream. -/
theorem digestIsLinearInData : Obligations.DigestIsLinearInData := by
  refine ⟨digest16_xor, fun n g k => ?_, digest16_zero_key, fun k j => ⟨keyStream_zero_gen k j, fun hj => ?_⟩,
    digest16_zero_len⟩
  · rw [digest16_eq_bitSum, List.take_replicate, inputBits_replicate_zero, bitSum_false]
  · rw [keyStream_zero_gen]
    exact BitVec.ushiftRight_eq_zero hj

/-- Settles O31: each key of the stream is linear in the first, and the bits only select among them. -/
theorem digestIsLinearInKey : Obligations.DigestIsLinearInKey := by
  intro bytes len g k₁ k₂
  simp only [digest16_eq_bitSum, bitSum_xor_key]

/-- The byte 0x40 has input bit 1 alone set, which gates `K_1` (R161). -/
theorem digest16_0x40 (g k : Word16) : digest16 [0x40] 1 g k = lfsrStep k g := by
  have bits : inputBits [0x40] = false :: true :: List.replicate 6 false := by decide
  rw [digest16_eq_bitSum, List.take_of_length_le (Nat.le_refl 1), bits, bitSum, bitSum, bitSum_false]
  simp

/-- Settles O57: an odd key's step is its shift XOR the generator, and the shift of key 3, which is not 0, enters one
digest on the left and two on the right. -/
theorem digestIsNotLinearInGenerator : Obligations.DigestIsNotLinearInGenerator := by
  refine ⟨3, 0x8810, 0x0001, ?_⟩
  rw [digest16_0x40, digest16_0x40, digest16_0x40]
  decide

/-! ### DIGEST -/

theorem digestInRange_iff (b : Block) : digestInRange b = true ↔ b.doff.toNat + b.dlen.toNat ≤ 26 :=
  decide_eq_true_iff

/-- An accepted DIGEST commits (R125, R170). -/
theorem exec_digest {s : State} (v : View) (h : s.blk.doff.toNat + s.blk.dlen.toNat ≤ 26) :
    exec (.digest v) s = .next (s.withBlk (finish (digestBlock v s.blk))) :=
  exec_acceptable (.digest v) s rfl ((digestInRange_iff s.blk).2 h)

/-- Settles O18: the range of the view is written out byte by byte, and the digest of no byte or under key 0 is 0. -/
theorem digestWritesDsum : Obligations.DigestWritesDsum := by
  intro s v h
  rw [exec_digest v h]
  refine ⟨by rw [← viewRange_eq v _ _ _ h]; rfl, fun hz => ⟨_, rfl, ?_⟩⟩
  rw [State.withBlk_blk, finish_dsum, digestBlock_dsum]
  obtain hlen | hkey := hz
  · rw [hlen]; exact digest16_zero_len _ _ _
  · rw [hkey]; exact digest16_zero_key _ _ _

/-- Settles O19: the range is outside exactly when the guard of the commit fails. -/
theorem digestOutOfRangeStops : Obligations.DigestOutOfRangeStops := fun s _ h =>
  if_neg (mt (digestInRange_iff s.blk).1 h.not_ge)

/-- DECODE exposes the digest of a frame it does not reject as INVALID (R233, R235). -/
theorem decodeBlock_dsum {b : Block} (h : b.payload[21] ≠ 0x00) : (decodeBlock b).dsum = frameDigest b.payload := by
  obtain ⟨h0, -⟩ | ⟨-, -, he⟩ | ⟨-, -, he⟩ := decodeBlock_cases b
  · exact absurd h0 h
  · rw [he]; rfl
  · rw [he]; rfl

/-- Settles O26: the two commands digest the same range of the same view under the same constants. -/
theorem formatDigestEqualsDecodeDigest : Obligations.FormatDigestEqualsDecodeDigest := by
  intro s hoff hlen hgen hkey hsane
  refine ⟨_, _, exec_digest .dw (by rw [hoff, hlen]; decide), rfl, ?_⟩
  calc (digestBlock .dw s.blk).dsum
      = frameDigest s.blk.payload := by rw [digestBlock_dsum, hoff, hlen, hgen, hkey]; rfl
    _ = (decodeBlock s.blk).dsum := (decodeBlock_dsum hsane).symm

/-! ### LSTEP -/

theorem lfsrSteps_zero_key (g : Word16) (n : Nat) : lfsrSteps g n 0 = 0 := by
  rw [← keyStream_eq_steps]; exact keyStream_zero_key g n

theorem lfsrSteps_zero_gen (n : Nat) (k : Word16) : lfsrSteps 0 n k = k >>> n := by
  rw [← keyStream_eq_steps, keyStream_zero_gen]

/-- The LSTEP bytes (R92). -/
theorem within_lstep : ∀ arg : Nibble, within 0x30 0x3F (0x3#4 ++ arg) := by
  unfold within
  decide

/-- Settles O20: LSTEP iterates the step; its acceptance and rejection are those of O13, and its corners are those of
the keystream. -/
theorem lstepAdvancesLstate : Obligations.LstepAdvancesLstate := by
  intro s n
  refine ⟨?commit, fun arg hb => ?accepted, fun arg hb => ?busy, decodeCmd_lstep, _, rfl, ?zero, ?shift, ?one, ?stream,
    ?examples⟩
  case commit =>
    rw [← lfsrSteps_eq_iterate]
    rfl
  case accepted =>
    obtain ⟨-, -, -, -, accepted⟩ := issueCommandOutcomes s (0x3#4 ++ arg)
    exact accepted hb (.inr (.inr (.inr (.inl (within_lstep arg)))))
  case busy =>
    obtain ⟨busy, -⟩ := issueCommandOutcomes s (0x3#4 ++ arg)
    exact busy hb
  all_goals simp only [State.withBlk_blk, finish_lstate, lstepBlock_lstate]
  case zero => intro h; rw [h, lfsrSteps_zero_key]
  case shift => intro h; rw [h, lfsrSteps_zero_gen]
  case one => intro h hg hn; rw [h, hg, hn]; decide
  case stream => intro j h; rw [h, keyStream_add]
  case examples =>
    intro h hg
    rw [h, hg]
    refine ⟨?_, ?_, ?_⟩ <;> rintro rfl <;> decide

/-! ### One flipped bit -/

theorem xor_ne_self {w : Nat} {x y : BitVec w} (h : y ≠ 0) : x ^^^ y ≠ x := fun e =>
  h ((BitVec.xor_right_inj x).1 (e.trans BitVec.xor_zero.symm))

/-- A payload with one bit of one byte flipped. -/
def flipBit (p : Payload) (i : Fin 26) (k : Fin 8) : Payload := p.set i (p[i] ^^^ ((1 : Byte) <<< k.val))

theorem dw_flipBit (p : Payload) (i j : Fin 26) (k : Fin 8) :
    dw (flipBit p i k) j = if i = j then dw p j ^^^ ((1 : Byte) <<< k.val) else dw p j := by
  rw [dw, flipBit, Fin.getElem_fin, Fin.getElem_fin, Vector.getElem_set]
  by_cases h : i = j
  · subst h
    rw [if_pos rfl, if_pos rfl, dw, BitVec.xor_assoc, BitVec.xor_comm _ Config.whitenMask, ← BitVec.xor_assoc]
    rfl
  · rw [if_neg (fun e => h (Fin.ext e)), if_neg h]
    rfl

/-- A flipped bit changes its byte. -/
theorem dw_flipBit_ne (p : Payload) (i : Fin 26) (k : Fin 8) : dw (flipBit p i k) i ≠ dw p i := by
  have mask_ne : ∀ k : Fin 8, (1 : Byte) <<< k.val ≠ 0 := by decide
  rw [dw_flipBit, if_pos rfl]
  exact xor_ne_self (mask_ne k)

/-! The checksum field, bytes 0 and 1. -/

/-- The checksum field holds both its bytes (R195). -/
theorem checksumField_inj {p q : Payload} (h : checksumField q = checksumField p) :
    dw q 0 = dw p 0 ∧ dw q 1 = dw p 1 := by
  have halves : ∀ x : Half, half x (checksumField q) = half x (checksumField p) := fun x => by rw [h]
  simp only [checksumField, dwPair, half_of_append] at halves
  exact ⟨halves .hi, halves .lo⟩

theorem checksumField_flipBit_ne (p : Payload) {i : Fin 26} (k : Fin 8) (hi : i.val < 2) :
    checksumField (flipBit p i k) ≠ checksumField p := by
  intro h
  obtain ⟨h0, h1⟩ := checksumField_inj h
  obtain rfl | rfl : i = 0 ∨ i = 1 := by omega
  · exact dw_flipBit_ne p 0 k h0
  · exact dw_flipBit_ne p 1 k h1

theorem checksumField_flipBit (p : Payload) {i : Fin 26} (k : Fin 8) (hi : 2 ≤ i.val) :
    checksumField (flipBit p i k) = checksumField p := by
  have h0 : i ≠ 0 := by omega
  have h1 : i ≠ 1 := by omega
  change dwPair _ 0 1 = dwPair _ 0 1
  rw [dwPair, dw_flipBit, dw_flipBit, if_neg h0, if_neg h1, dwPair]

/-! The digested bytes, 2 to 24. -/

/-- The bytes DECODE digests, de-whitened bytes 2 to 24 (R195). -/
def frameBytes (p : Payload) : List Byte := List.ofFn fun j : Fin 23 => dw p ⟨j.val + 2, by omega⟩

theorem frameDigest_eq_bitSum (p : Payload) :
    frameDigest p = bitSum Config.digGen (inputBits (frameBytes p)) Config.digKey := by
  have hlen : (frameBytes p).length = 23 := List.length_ofFn
  rw [frameDigest_eq, ← digest16_all, hlen]
  rfl

theorem frameBytes_flipBit_checksum (p : Payload) {i : Fin 26} (k : Fin 8) (hi : i.val < 2) :
    frameBytes (flipBit p i k) = frameBytes p := by
  refine congrArg List.ofFn (funext fun j => ?_)
  have hne : i ≠ ⟨j.val + 2, by omega⟩ := fun e => by rw [e] at hi; simp at hi
  rw [dw_flipBit, if_neg hne]

theorem frameBytes_flipBit (p : Payload) {i : Fin 26} (k : Fin 8) (hi : 2 ≤ i.val) :
    frameBytes (flipBit p i k) = (frameBytes p).modify (i.val - 2) (· ^^^ ((1 : Byte) <<< k.val)) := by
  refine List.ext_getElem (by simp [frameBytes]) fun j hj _ => ?_
  rw [frameBytes, List.length_ofFn] at hj
  have index : i = ⟨j + 2, by omega⟩ ↔ i.val - 2 = j := by simp only [Fin.ext_iff]; omega
  simp only [List.getElem_modify, frameBytes, List.getElem_ofFn, dw_flipBit, index]

/-- A flipped bit of a byte is one flipped input bit, in processing order (R161). -/
theorem bitsMsbFirst_flip (b : Byte) (k : Fin 8) :
    bitsMsbFirst (b ^^^ ((1 : Byte) <<< k.val)) = (bitsMsbFirst b).modify (7 - k) (!·) := by
  have mask_bit : ∀ k j : Fin 8, ((1 : Byte) <<< k.val).getLsbD (7 - j) = decide (7 - k.val = j) := by decide
  refine List.ext_getElem (by simp) fun j hj _ => ?_
  rw [bitsMsbFirst_length] at hj
  rw [List.getElem_modify, bitsMsbFirst_getElem _ j hj, bitsMsbFirst_getElem _ j hj, BitVec.getLsbD_xor,
    mask_bit k ⟨j, hj⟩]
  by_cases h : 7 - k.val = j <;> simp [h]

theorem inputBits_flip (bytes : List Byte) (m : Nat) (k : Fin 8) :
    inputBits (bytes.modify m (· ^^^ ((1 : Byte) <<< k.val))) = (inputBits bytes).modify (8 * m + (7 - k)) (!·) := by
  induction bytes generalizing m with
  | nil => simp
  | cons b bs ih =>
    cases m with
    | zero =>
      rw [List.modify_zero_cons, inputBits_cons, inputBits_cons, bitsMsbFirst_flip]
      fin_cases k <;> rfl
    | succ m =>
      rw [List.modify_succ_cons, inputBits_cons, inputBits_cons, ih,
        show 8 * (m + 1) + (7 - k.val) = (8 * m + (7 - k.val)) + 8 by omega]
      rfl

/-- A flipped input bit adds the key it gates to the sum (R163). -/
theorem bitSum_flip (g k : Word16) {bs : List Bool} {j : Nat} (hj : j < bs.length) :
    bitSum g (bs.modify j (!·)) k = bitSum g bs k ^^^ keyStream g k j := by
  induction bs generalizing j k with
  | nil => cases hj
  | cons b bs ih =>
    cases j with
    | zero =>
      rw [List.modify_zero_cons, bitSum, bitSum, keyStream]
      cases b <;> simp [BitVec.xor_comm]
    | succ j =>
      rw [List.modify_succ_cons, bitSum, bitSum, ih _ (Nat.lt_of_succ_lt_succ hj), keyStream_next, BitVec.xor_assoc]

theorem frameDigest_flipBit (p : Payload) {i : Fin 26} (k : Fin 8) (hi : 2 ≤ i.val) (hi' : i.val ≤ 24) :
    frameDigest (flipBit p i k) =
      frameDigest p ^^^ keyStream Config.digGen Config.digKey (8 * (i.val - 2) + (7 - k)) := by
  have hbit : 8 * (i.val - 2) + (7 - k.val) < (inputBits (frameBytes p)).length := by
    rw [inputBits_length, frameBytes, List.length_ofFn]
    omega
  rw [frameDigest_eq_bitSum, frameBytes_flipBit p k hi, inputBits_flip, bitSum_flip _ _ hbit, frameDigest_eq_bitSum]

/-! The validator sees the flipped bit. -/

/-- A flipped bit of bytes 0 to 24 changes the checksum or the digest, and not both (R195, R196). -/
theorem validator_flipBit_ne (p : Payload) {i : Fin 26} (k : Fin 8) (hi : i.val ≤ 24) :
    checksumField (flipBit p i k) ^^^ frameDigest (flipBit p i k) ≠ checksumField p ^^^ frameDigest p := by
  obtain hc | hd := Nat.lt_or_ge i.val 2
  · rw [frameDigest_eq_bitSum, frameBytes_flipBit_checksum p k hc, ← frameDigest_eq_bitSum]
    exact mt (BitVec.xor_left_inj _).1 (checksumField_flipBit_ne p k hc)
  · rw [checksumField_flipBit p k hd, frameDigest_flipBit p k hd hi, ← BitVec.xor_assoc]
    exact xor_ne_self (keyStream_ne_zero (by decide) (by decide) _)

/-- A DECODE that answers OK found the validator's constant (R196, R233). -/
theorem validator_of_ok {b : Block} (h : (decodeBlock b).code = 1) :
    checksumField b.payload ^^^ frameDigest b.payload = 0x6DF1 := by
  obtain ⟨-, he⟩ | ⟨-, -, he⟩ | ⟨-, hv, -⟩ := decodeBlock_cases b
  · rw [he] at h; cases h
  · rw [he] at h; cases h
  · exact hv

/-- Settles O36: the key a digested bit gates is never 0, so checksum XOR digest changes with the bit, and it cannot be
the validator's constant in both frames. -/
theorem singleBitErrorIsDetected : Obligations.SingleBitErrorIsDetected := by
  intro s u i k hi hu
  refine ⟨_, _, rfl, rfl, fun ok ok' => validator_flipBit_ne s.blk.payload k hi ?_⟩
  rw [flipBit, ← hu, validator_of_ok ok', validator_of_ok ok]

end Sys2Proof.Machine
end

section
/-! SUPPORT. The family of spec/43_decode.md: the validator, the converters, the outcomes of DECODE, the record of a
frame, the built frame, and the statements about them. -/

namespace Sys2Proof.Machine

open Sys2Proof.Safety

/-! ### The validator -/

theorem validatorPasses_iff (chk dig : Word16) : validatorPasses chk dig = true ↔ chk ^^^ dig = 0x6DF1 := beq_iff_eq

/-- Two words are equal when their XOR has no bit set: the error word of R196. -/
theorem eq_iff_getLsbD_xor {w : Nat} (x y : BitVec w) : x = y ↔ ∀ k < w, (x ^^^ y).getLsbD k = false := by
  simp [BitVec.eq_of_getLsbD_eq_iff]

theorem xor_eq_iff_eq_xor {w : Nat} (x y z : BitVec w) : x ^^^ y = z ↔ x = y ^^^ z := by
  rw [← BitVec.xor_left_inj y, BitVec.xor_assoc, BitVec.xor_self, BitVec.xor_zero, BitVec.xor_comm z]

/-- Settles O32: equal words are those whose XOR has no bit set, and XOR with the digest undoes itself. -/
theorem validatorAcceptsOneChecksum : Obligations.ValidatorAcceptsOneChecksum := fun dig =>
  ⟨fun chk => validatorPasses_iff chk dig,
    fun chk => (validatorPasses_iff chk dig).trans (eq_iff_getLsbD_xor _ _),
    fun chk => (validatorPasses_iff chk dig).trans (xor_eq_iff_eq_xor _ _ _)⟩

/-! ### The converters, the temperature and the physical values -/

/-- Each nibble of a list weighs as many powers of ten as nibbles follow it (R200). -/
theorem bcd_eq_sum (ds : List Nibble) :
    bcd ds = ∑ i : Fin ds.length, ds[i].toNat * 10 ^ (ds.length - 1 - i.val) := by
  induction ds with
  | nil => rfl
  | cons d ds ih =>
    simp only [bcd, ih, List.length_cons, Fin.sum_univ_succ]
    simp [Nat.sub_sub, Nat.add_comm]

/-- Settles O33: the general sum is by induction on the nibbles. -/
theorem bcdIsWeightedSum : Obligations.BcdIsWeightedSum := ⟨bcd_two, bcd_three, bcd_six, bcd_eq_sum⟩

/-- Three decimal digits give 0 to 999. -/
theorem bcd_three_le_of_decimal {a b c : Nibble} (ha : a.toNat ≤ 9) (hb : b.toNat ≤ 9) (hc : c.toNat ≤ 9) :
    bcd [a, b, c] ≤ 999 := by
  rw [bcd_three]
  omega

/-- Settles O34: the temperature word is exact up to 1665, and the ranges are those of the two branches of its rule. -/
theorem temperatureRuleAndRange : Obligations.TemperatureRuleAndRange := by
  refine ⟨fun a b c => ⟨bcd_three_le a b c, bcd_three_le_of_decimal⟩, fun traw h => ?_⟩
  rw [tempWord_toInt traw h]
  split <;> omega

/-- Settles O56: each value is a register divided by its scale, if it has one, and no scale is 0. -/
theorem physicalValuesAreExact : Obligations.PhysicalValuesAreExact := fun _ =>
  ⟨div_mul_cancel₀ _ (by decide), rfl, div_mul_cancel₀ _ (by decide), div_mul_cancel₀ _ (by decide), rfl,
    div_mul_cancel₀ _ (by decide), rfl, div_mul_cancel₀ _ (by decide), div_mul_cancel₀ _ (by decide)⟩

/-! ### The outcomes of DECODE -/

theorem exec_decode (s : State) : exec .decode s = .next (s.withBlk (finish (decodeBlock s.blk))) := rfl

theorem decodeBlock_of_digErr {b : Block} (h : b.payload[21] ≠ 0x00)
    (hv : checksumField b.payload ^^^ frameDigest b.payload ≠ 0x6DF1) :
    decodeBlock b = setOutcome .digErr false (setDigest b) := by
  obtain ⟨h', -⟩ | ⟨-, -, he⟩ | ⟨-, hv', -⟩ := decodeBlock_cases b
  · exact absurd h' h
  · exact he
  · exact absurd hv' hv

theorem decodeBlock_of_ok {b : Block} (h : b.payload[21] ≠ 0x00)
    (hv : checksumField b.payload ^^^ frameDigest b.payload = 0x6DF1) :
    decodeBlock b = setOutcome .ok true (setRecord (setDigest b)) := by
  obtain ⟨h', -⟩ | ⟨-, hv', -⟩ | ⟨-, -, he⟩ := decodeBlock_cases b
  · exact absurd h' h
  · exact absurd hv hv'
  · exact he

/-- Settles O22: the three outcomes, each with the checks that lead to it. -/
theorem decodeStatusOrder : Obligations.DecodeStatusOrder := by
  intro s
  refine ⟨_, exec_decode s, ?_⟩
  obtain ⟨h, he⟩ | ⟨h, hv, he⟩ | ⟨h, hv, he⟩ := decodeBlock_cases s.blk
  · exact ⟨fun _ => congrArg Block.code he, fun h' => absurd h h', fun h' => absurd h h'⟩
  · exact ⟨fun h' => absurd h' h, fun _ _ => congrArg Block.code he, fun _ hv' => absurd hv' hv⟩
  · exact ⟨fun h' => absurd h' h, fun _ hv' => absurd hv hv', fun _ _ => congrArg Block.code he⟩

/-- Settles O24: INVALID writes neither register, the other outcomes write both, and the validator tells these apart. -/
theorem decodeExposesDigestAndChecksum : Obligations.DecodeExposesDigestAndChecksum := by
  intro s
  refine ⟨_, exec_decode s, ?_⟩
  obtain ⟨-, he⟩ | ⟨-, hv, he⟩ | ⟨-, hv, he⟩ := decodeBlock_cases s.blk
  · simp [he, DecodeStatus.code]
  · simpa [he, DecodeStatus.code] using hv
  · simp [he, hv, DecodeStatus.code]

/-! ### A failing DECODE and the record -/

/-- The named addresses of the record, 0x50 to 0x68: the result registers but DSUM and CHK (R40, R61). -/
def recordPort : Port → Bool
  | .dsum _ | .chk _ => false
  | p => resultPort p

theorem recordPort_portOf {a : Byte} (h : within 0x50 0x68 a) : recordPort (portOf a) = true := by
  unfold within at h
  revert a
  decide

/-- Blocks with one record read alike at its addresses. -/
theorem readPort_of_record {b c : Block} (hr : c.record = b.record) {p : Port} (hp : recordPort p = true) :
    readPort c p = readPort b p := by
  cases p with
  | id | stype | sinfo | flags | fvalid | wdir | wgust | wavg | rain | hum | temp | lux | uv | traw =>
    simp only [readPort, hr]
  | _ => cases hp

theorem decodeBlock_of_code_ne_one {b : Block} (h : (decodeBlock b).code ≠ 1) :
    (decodeBlock b).record = b.record ∧ (decodeBlock b).valid = false ∧ (decodeBlock b).complete = false := by
  obtain ⟨-, he⟩ | ⟨-, -, he⟩ | ⟨-, -, he⟩ := decodeBlock_cases b
  · rw [he]; exact ⟨rfl, rfl, rfl⟩
  · rw [he]; exact ⟨rfl, rfl, rfl⟩
  · exact absurd (congrArg Block.code he) h

/-- Settles O23: a failing DECODE keeps the record, and 0x50 to 0x68 show nothing else. -/
theorem failedDecodeKeepsRecord : Obligations.FailedDecodeKeepsRecord := by
  intro s
  refine ⟨_, exec_decode s, fun hcode => ?_⟩
  obtain ⟨record, valid, complete⟩ := decodeBlock_of_code_ne_one hcode
  exact ⟨record, valid, complete, fun a ha =>
    readPort_of_record (c := finish (decodeBlock s.blk)) record (recordPort_portOf ha)⟩

/-! ### The record of a frame -/

/-- A record holds the fields of a frame whose de-whitened bytes from 2 on are `w` (R202 to R218). -/
structure HoldsFields (w : Fin 26 → Byte) (r : Record) : Prop where
  id : r.id = w 2 ++ w 3
  stype : r.stype = (w 6 ^^^ 0xAA) >>> 4
  sinfo : r.sinfo = packSinfo (w 6) (w 15)
  flags : r.flags = w 15 &&& 0x0F
  fvalid : r.fvalid = 0xFF
  wdir : r.wdir.toNat = 100 * ((w 4).toNat / 16) + 10 * ((w 4).toNat % 16) + (w 5).toNat / 16
  wgust : r.wgust.toNat = 100 * ((w 7).toNat / 16) + 10 * ((w 7).toNat % 16) + (w 8).toNat / 16
  wavg : r.wavg.toNat = 100 * ((w 8).toNat % 16) + 10 * ((w 9).toNat / 16) + (w 9).toNat % 16
  rain : r.rain.toNat = 100000 * ((w 10).toNat / 16) + 10000 * ((w 10).toNat % 16) + 1000 * ((w 11).toNat / 16) +
    100 * ((w 11).toNat % 16) + 10 * ((w 12).toNat / 16) + (w 12).toNat % 16
  traw : r.traw.toNat = 100 * ((w 14).toNat / 16) + 10 * ((w 14).toNat % 16) + (w 15).toNat / 16
  temp : r.temp.toInt = if r.traw.toNat > 600 then (r.traw.toNat : Int) - 1000 else r.traw.toNat
  hum : r.hum.toNat = 10 * ((w 16).toNat / 16) + (w 16).toNat % 16
  lux : r.lux.toNat = 100000 * ((w 17).toNat / 16) + 10000 * ((w 17).toNat % 16) + 1000 * ((w 18).toNat / 16) +
    100 * ((w 18).toNat % 16) + 10 * ((w 19).toNat / 16) + (w 19).toNat % 16
  uv : r.uv.toNat = 100 * ((w 20).toNat / 16) + 10 * ((w 20).toNat % 16) + (w 21).toNat / 16

/-- What DECODE writes on OK holds the frame's fields: every converter's weighted sum fits its register. -/
theorem holdsFields_recordOf {p : Payload} {w : Fin 26 → Byte} (hw : ∀ i : Fin 26, 2 ≤ i.val → w i = dw p i) :
    HoldsFields w (recordOf p) := by
  have raw : dw p 6 ^^^ (0xAA : Byte) = p[6] := dewhiten_dewhiten p[6]
  constructor
  case fvalid => rfl
  case temp => exact (recordInv_recordOf p).temp_of_traw
  all_goals simp (disch := decide) only [hw, ← hi4_toNat, ← lo4_toNat]
  case id | sinfo => rfl
  case stype => rw [raw]; exact hi4_setWidth p[6]
  case flags => exact lo4_setWidth _
  case hum => exact ofNat_bcd_two _ _
  case rain | lux => exact ofNat_bcd_six _ _ _ _ _ _
  case wdir | wgust | wavg | traw | uv => exact ofNat_bcd_three _ _ _

/-! ### The example E1 -/

/-- The payload of E1 (95_test_vectors.md V1), as sent. -/
def frameE1 : Payload :=
  #v[0xC4, 0xD6, 0x3A, 0xC5, 0xBD, 0xFA, 0x18, 0xAA, 0xAA, 0xAA, 0xAA, 0xAB, 0xFC,
    0xAA, 0x98, 0xDA, 0x89, 0xA3, 0x2F, 0xEC, 0xAF, 0x9A, 0xAA, 0xAA, 0xAA, 0x00]

theorem checksumField_frameE1 : checksumField frameE1 = 0x6E7C := by decide

theorem frameDigest_frameE1 : frameDigest frameE1 = 0x038D := by decide +kernel

theorem recordOf_frameE1 : (recordOf frameE1).id = 0x906F ∧ (recordOf frameE1).temp.toInt = 327 := by decide

theorem decodeBlock_frameE1 {b : Block} (hp : b.payload = frameE1) :
    decodeBlock b = setOutcome .ok true (setRecord (setDigest b)) := by
  apply decodeBlock_of_ok
  · rw [hp]; decide
  · rw [hp, checksumField_frameE1, frameDigest_frameE1]; rfl

/-- Settles O21: each outcome's block is written out, and on OK the record holds the frame's fields; the acceptance and
the rejections are those of O13. -/
theorem decodeEffect : Obligations.DecodeEffect := by
  intro s p w hi lo chk dig
  have hdig : frameDigest p = dig := frameDigest_eq p
  obtain ⟨busy, -, -, -, accepted⟩ := issueCommandOutcomes s 0x10
  refine ⟨exec_decode_of_insane s, fun h hv => ?digErr, fun h hv => ⟨recordOf p, ?ok, ?record⟩,
    fun hb => accepted hb (.inr (.inl rfl)), busy, fun v hb hv => ?badArg, fun hp => ?vectorE1⟩
  case digErr =>
    rw [exec_decode, decodeBlock_of_digErr h (hdig ▸ hv), ← hdig]
    simp only [finish, setOutcome, setDigest, DecodeStatus.code]
    rfl
  case ok =>
    rw [exec_decode, decodeBlock_of_ok h (hdig ▸ hv), ← hdig]
    simp only [finish, setOutcome, setRecord, setDigest, DecodeStatus.code]
    rfl
  case record =>
    have fields : HoldsFields w (recordOf p) := holdsFields_recordOf fun _ _ => rfl
    exact ⟨fields.id, hi4_setWidth _, fields.sinfo.trans (packSinfo_eq_or _ _), fields.flags, fields.fvalid,
      fields.wdir, fields.wgust, fields.wavg, fields.rain, fields.traw, fields.temp, fields.hum, fields.lux, fields.uv⟩
  case badArg =>
    obtain ⟨-, -, badArg, -⟩ := issueCommandOutcomes s v
    exact badArg hb (.inr (.inl hv))
  case vectorE1 =>
    change p = frameE1 at hp
    have decoded := decodeBlock_frameE1 hp
    have record : (decodeBlock s.blk).record = recordOf frameE1 :=
      (congrArg Block.record decoded).trans (congrArg recordOf hp)
    obtain ⟨hid, htemp⟩ := recordOf_frameE1
    rw [← record] at hid htemp
    refine ⟨?_, ?_, _, exec_decode s, congrArg Block.code decoded, hid, htemp⟩
    · exact (congrArg checksumField hp).trans checksumField_frameE1
    · rw [← hdig, hp, frameDigest_frameE1]

/-! ### The built frame -/

theorem dw_validFrame (w : Vector Byte 26) {i : Fin 26} (h : 2 ≤ i.val) : dw (validFrame w) i = w[i] := by
  rw [dw, Fin.getElem_fin, validFrame_getElem w i i.isLt h]
  exact dewhiten_dewhiten w[i]

/-- The window shows the bytes a built frame was built from (R150). -/
theorem memRead_dw_of_validFrame {b : Block} {w : Vector Byte 26} (hp : b.payload = validFrame w) {i : Fin 26}
    (hi : 2 ≤ i.val) : memRead (BitVec.ofNat 8 (0x20 + i)) b = w[i] := by
  rw [memRead_dw, hp]
  exact dw_validFrame w hi

/-- The digest of a built frame is the one its checksum was formed from: it reads no checksum byte (R195, R197). -/
theorem frameDigest_validFrame (w : Vector Byte 26) : frameDigest (validFrame w) =
    digest16 ((w.toList.drop Config.digOff).take Config.digLen) Config.digLen Config.digGen Config.digKey := by
  have bytes : (viewBytes .dw (validFrame w)).drop 2 = w.toList.drop 2 := by
    refine List.ext_getElem (by simp [viewBytes]) fun i _ hi => ?_
    simp only [List.length_drop, Vector.length_toList] at hi
    simp only [viewBytes, List.getElem_drop, List.getElem_map, Vector.getElem_toList]
    exact dw_validFrame w (i := ⟨2 + i, by omega⟩) (Nat.le_add_right 2 i)
  rw [frameDigest, viewRange, Config.digOff, bytes]

theorem checksumField_validFrame (w : Vector Byte 26) :
    checksumField (validFrame w) = frameDigest (validFrame w) ^^^ 0x6DF1 := by
  have bytes : dw (validFrame w) 0 = half .hi (frameDigest (validFrame w) ^^^ 0x6DF1) ∧
      dw (validFrame w) 1 = half .lo (frameDigest (validFrame w) ^^^ 0x6DF1) := by
    rw [frameDigest_validFrame]
    simp [dw, validFrame]
  obtain ⟨h0, h1⟩ := bytes
  calc checksumField (validFrame w)
      = dw (validFrame w) 0 ++ dw (validFrame w) 1 := rfl
    _ = frameDigest (validFrame w) ^^^ 0x6DF1 := by rw [h0, h1, half_append]

/-- A built frame is sane when its de-whitened byte 21 is not the mask (R192). -/
theorem validFrame_sane {w : Vector Byte 26} (h : w[21] ≠ 0xAA) : (validFrame w)[21] ≠ 0x00 := by
  rw [validFrame_getElem w 21 (by decide) (by decide)]
  exact mt BitVec.xor_eq_zero_iff.1 h

theorem decodeBlock_validFrame {b : Block} {w : Vector Byte 26} (hp : b.payload = validFrame w) (hw : w[21] ≠ 0xAA) :
    decodeBlock b = setOutcome .ok true (setRecord (setDigest b)) := by
  apply decodeBlock_of_ok
  · rw [hp]; exact validFrame_sane hw
  · rw [hp, xor_eq_iff_eq_xor]; exact checksumField_validFrame w

/-- The low five bits of STATUS with the outcome OK: `COMPLETE`, `VALID` and CODE 1 (R25). -/
theorem statusByte_low5_of_ok {b : Block} (hcomplete : b.complete = true) (hvalid : b.valid = true)
    (hcode : b.code = 1) : statusByte b &&& 0x1F = 0x19 := by
  rw [statusByte, hcomplete, hvalid, hcode]
  cases b.busy <;> cases b.done <;> cases b.err <;> rfl

/-- Settles O35: a built frame passes both checks, and its de-whitened bytes from 2 on, which the record's fields are
read from, are those it was built from. -/
theorem builtFrameRoundTrips : Obligations.BuiltFrameRoundTrips := by
  intro s w hp hw
  have fields : HoldsFields (fun i => w[i]) (recordOf s.blk.payload) :=
    holdsFields_recordOf fun i hi => by rw [hp, dw_validFrame w hi]
  obtain ⟨-, hchan, hstartup, hbatt⟩ := packSinfo_fields w[6] w[15]
  refine ⟨_, exec_decode s, ?_⟩
  rw [decodeBlock_validFrame hp hw]
  simp only [State.withBlk_blk, finish_record, setOutcome_record, setRecord_record, setDigest_payload]
  refine ⟨statusByte_low5_of_ok rfl rfl rfl, fun i hi => ?window, fields.id, fields.stype, ⟨?chan, ?startup, ?batt⟩,
    fields.flags, fields.wdir, fields.wgust, fields.wavg, fields.rain, fields.traw, fields.hum, fields.lux, fields.uv,
    fields.temp, fields.fvalid⟩
  case window =>
    apply memRead_dw_of_validFrame _ hi
    simpa only [finish_payload, setOutcome_payload, setRecord_payload, setDigest_payload] using hp
  case chan => rw [fields.sinfo]; exact hchan
  case startup => rw [fields.sinfo]; exact hstartup
  case batt => rw [fields.sinfo]; exact hbatt

end Sys2Proof.Machine
end

section
/-! SUPPORT. The family of spec/60_exceptions.md: the two interface errors, rejection and dropped write, and the
statement that nothing stops the block. -/

namespace Sys2Proof.Machine

open Sys2Proof.Safety

/-! ### Rejected commands -/

/-- Settles O15: of a DIGEST byte only the range is left to check, and it is checked in exact arithmetic. -/
theorem rangeCheckIsExact : Obligations.RangeCheckIsExact := by
  intro s v hb hv
  rw [exec_wr_cmd, issueCommand_digest v s.blk hb hv]
  constructor
  · intro h
    rw [if_neg h.not_ge]
    rfl
  · intro h
    rw [if_pos h]
    rfl

/-- Each row of R241's table of causes raises `CmdError` with its own code. -/
theorem issueCommand_rejected {b : Block} {v c : Byte} (hb : b.busy = false)
    (h : (c = 1 ∧ within 0x50 0xFF v) ∨
      (c = 2 ∧ (within 0x01 0x0F v ∨ within 0x11 0x1F v ∨ within 0x22 0x2F v ∨ within 0x41 0x4F v)) ∨
      (c = 3 ∧ (v = 0x20 ∨ v = 0x21) ∧ 26 < b.doff.toNat + b.dlen.toNat)) :
    ∃ e, errCode e = c ∧ issueCommand v b = cmdError e b := by
  obtain ⟨rfl, hv, -⟩ | ⟨rfl, hv⟩ | ⟨rfl, hv, hr⟩ := h
  · have hop : 5 ≤ v.toNat / 16 := Nat.div_le_div_right (c := 16) hv
    exact ⟨.illegalOp, rfl, issueCommand_reject v b .illegalOp hb (decodeCmd_illegal v hop)⟩
  · exact ⟨.badArg, rfl, issueCommand_reject v b .badArg hb (decodeCmd_badArg v hv)⟩
  · refine ⟨.range, rfl, ?_⟩
    rw [issueCommand_digest v b hb hv, if_neg hr.not_ge]

/-- Settles O14: every cause ends in `CmdError`, which writes ERR, ERRCODE and DONE alone. -/
theorem rejectionEffect : Obligations.RejectionEffect := by
  intro s v c hb h
  obtain ⟨e, hcode, he⟩ := issueCommand_rejected hb h
  refine ⟨s.withBlk (cmdError e s.blk), ?_, rfl, hcode, rfl, hb, rfl, ?_⟩
  · rw [exec_wr_cmd, he]
  · exact ⟨⟨rfl, rfl, rfl, rfl, rfl⟩, ⟨rfl, rfl, rfl, rfl, rfl, rfl, rfl⟩, ⟨rfl, rfl, rfl, rfl⟩⟩

/-! ### Dropped writes -/

/-- A command commits only where its acceptance check holds (R125, R170). -/
theorem acceptable_of_exec {i : Instr} {s t : State} (h : exec i s = .next t) : acceptable i s.blk = true := by
  cases i with
  | digest v =>
    refine (digestInRange_iff s.blk).2 (not_lt.1 fun hr => ?_)
    rw [digestOutOfRangeStops s v hr] at h
    cases h
  | nop | decode | lstep | clear | rd | wr => rfl

/-- A write dropped before a command's commit shows after it in ERR and ERRCODE, and nowhere else (R242). -/
theorem exec_command_dropBusyWrite {i : Instr} {s u : State} (hi : i.isCommand = true) (h : exec i s = .next u) :
    exec i (s.withBlk (dropBusyWrite s.blk)) = .next (u.withBlk (dropBusyWrite u.blk)) := by
  have ha : acceptable i (dropBusyWrite s.blk) = true := (acceptable_congr i rfl rfl).trans (acceptable_of_exec h)
  obtain rfl := exec_command i s u hi h
  rw [exec_acceptable i (s.withBlk (dropBusyWrite s.blk)) hi ha, State.withBlk_blk, commandBlock_dropBusyWrite]
  rfl

/-- Settles O12: a busy block drops the writes it does not ignore, and a dropped write does not reach the commit. -/
theorem busyWriteIsDropped : Obligations.BusyWriteIsDropped := by
  intro s a v hb
  refine ⟨fun ha => ⟨?drop, fun i u hi h => exec_command_dropBusyWrite hi h⟩,
    fun hcmd hpayload hcontrol => exec_wr_ignored v s hcmd (writable_false a hpayload hcontrol)⟩
  case drop =>
    rw [exec_wr, memWrite_busy a v s.blk hb, if_pos (ha.imp_right (writable_iff a).2)]
    rfl

/-! ### Nothing stops the block -/

/-- Settles O51: a turn the schedule names answers; with none named, a busy engine commits a command that was accepted,
and else the host moves. -/
theorem invariantStateNeverStops : Obligations.InvariantStateNeverStops := by
  intro s hinv
  cases hs : s.sched with
  | cons m ts => exact step_next_of_inv hinv hs
  | nil =>
    cases hb : s.blk.busy with
    | true =>
      obtain ⟨i, hi, ha⟩ := hinv.pending hb
      rw [engineStepRunsPendingCommand s i [] (.inr ⟨hs, rfl⟩) hb hi]
      exact ⟨_, exec_acceptable i _ (decodeCmd_isCommand _ _ hi) ha⟩
    | false =>
      rw [step_host (.inr ⟨hs, rfl, hb⟩)]
      exact hostTurn_next _

end Sys2Proof.Machine
end

section
/-! SUPPORT. The family of spec/70_reset_and_hazards.md: the reset event, and the statement that a pending command
does not wait forever. -/

namespace Sys2Proof.Machine

open Sys2Proof.Safety

/-! ### The reset event -/

/-- A reset turn leaves the host's side alone and every register at its reset value (R270, log entry 5). -/
theorem step_reset {s : State} {ts : List Turn} (hs : s.sched = .reset :: ts) :
    step s = .next { s with sched := ts, blk := Block.reset } := by
  rw [step, hs]
  rfl

/-- Settles O47: the registers are those of the reset block, and STATUS is read from its fields. -/
theorem resetEventSetsEveryRegister : Obligations.ResetEventSetsEveryRegister := by
  intro s ts hs
  have status : memRead 0x41 Block.reset = 0x00 := by decide
  exact ⟨_, step_reset hs, rfl, status, rfl, rfl, rfl, rfl, rfl, rfl, rfl, rfl, rfl, rfl, rfl, rfl, rfl, rfl⟩

/-! ### A pending command ends -/

/-- A step takes one turn off the schedule (R13). -/
theorem step_sched {s t : State} {m : Turn} {ts : List Turn} (hs : s.sched = m :: ts) (h : step s = .next t) :
    t.sched = ts := by
  by_cases hm : m = .host
  · rw [hm] at hs
    rw [step_host (.inl hs)] at h
    exact (hostTurn_cases _ t h).1
  · exact (step_other_turn s t m ts hs hm h).2.2

/-- With no turn named, a pending command commits (R290, log entry 2). -/
theorem step_unscheduled_busy {s t : State} (hs : s.sched = []) (hb : s.blk.busy = true) (h : step s = .next t) :
    t.blk.busy = false := by
  obtain ⟨-, ht⟩ | ⟨-, hidle, -⟩ | ⟨-, -, i, -, ht⟩ | ⟨-, hidle, -⟩ := step_cases s t h
  · rw [ht]; rfl
  · rw [hidle] at hb; cases hb
  · rw [ht]; rfl
  · rw [hidle hs] at hb; cases hb

/-- BUSY falls within `n` steps, and is 1 until then. -/
def BusyFallsWithin (n : Nat) (s : State) : Prop :=
  ∃ k t, 1 ≤ k ∧ k ≤ n ∧ Host.Core.run Sys2Proof.core k s = .next t ∧ t.blk.busy = false ∧
    ∀ j, j < k → ∃ u : State, Host.Core.run Sys2Proof.core j s = .next u ∧ u.blk.busy = true

/-- A busy state's bound is one more than its next state's, if that is still busy. -/
theorem BusyFallsWithin.of_step {n : Nat} {s u : State} (hb : s.blk.busy = true) (h : step s = .next u)
    (hu : u.blk.busy = true → BusyFallsWithin n u) : BusyFallsWithin (n + 1) s := by
  cases hbu : u.blk.busy with
  | false =>
    refine ⟨1, u, le_rfl, n.succ_pos, run_succ 0 h, hbu, fun j hj => ⟨s, ?_, hb⟩⟩
    rw [Nat.lt_one_iff.1 hj]
    rfl
  | true =>
    obtain ⟨k, t, -, hkn, hrun, ht, before⟩ := hu hbu
    refine ⟨k + 1, t, k.succ_pos, Nat.succ_le_succ hkn, (run_succ k h).trans hrun, ht, fun j hj => ?_⟩
    cases j with
    | zero => exact ⟨s, rfl, hb⟩
    | succ j =>
      obtain ⟨v, hv, hbv⟩ := before j (Nat.lt_of_succ_lt_succ hj)
      exact ⟨v, (run_succ j h).trans hv, hbv⟩

/-- Each turn of the schedule ends BUSY or leaves the rest of the schedule to do so; the last step is the commit. -/
theorem busyFallsWithin_of_sched {s : State} {ts : List Turn} (hs : s.sched = ts) (hinv : Inv s)
    (hb : s.blk.busy = true) : BusyFallsWithin (ts.length + 1) s := by
  induction ts generalizing s with
  | nil =>
    obtain ⟨u, hstep⟩ := invariantStateNeverStops s hinv
    refine .of_step hb hstep fun hbu => ?_
    rw [step_unscheduled_busy hs hb hstep] at hbu
    cases hbu
  | cons m ts ih =>
    obtain ⟨u, hstep⟩ := invariantStateNeverStops s hinv
    exact .of_step hb hstep (ih (step_sched hs hstep) (stepKeepsInvariant s u hinv hstep))

/-- Settles O52: by induction on the schedule. -/
theorem pendingCommandCommitsOrIsReset : Obligations.PendingCommandCommitsOrIsReset := fun _ hinv hb =>
  busyFallsWithin_of_sched rfl hinv hb

end Sys2Proof.Machine
end
